-- ==== Sys2Proof/Syntax.lean ====
section
/-! DEFINITION. The commands of the block, one constructor per row of `spec/opcode_table.json` (`30_encoding.md` rule R84). -/

namespace Sys2Proof

/-- A command. Its register operands are implicit (rule R85); the only immediate is BITLEN (rule R83). -/
inductive Instr where
  /-- GCD, opcode 0x01, rule R101. -/
  | gcd
  /-- EGCD, opcode 0x02, rule R103. -/
  | egcd
  /-- MODINV, opcode 0x03, rule R105. -/
  | modinv
  /-- MRTEST, opcode 0x04, rule R125. -/
  | mrtest
  /-- GENPRIME, opcode 0x05, rule R127. -/
  | genprime (bitlen : Nat)
  /-- KEYGEN, opcode 0x06, rule R140. -/
  | keygen (bitlen : Nat)
  /-- MODPOW, opcode 0x07, rule R162. -/
  | modpow
  /-- ENCRYPT, opcode 0x08, rule R180. -/
  | encrypt
  /-- DECRYPT, opcode 0x09, rule R181. -/
  | decrypt
  /-- DECRYPT_CRT, opcode 0x0A, rule R185. -/
  | decryptCrt
  deriving DecidableEq, Repr

end Sys2Proof
end

