-- ==== Sys2Proof/WellFormed.lean ====
section
/-! DEFINITION. Which commands have an encoding (`30_encoding.md` rules R83 and R88). -/

namespace Sys2Proof

/-- Rule R88: "An assembler must refuse an immediate outside 0 to 65535". -/
def Instr.wellFormed : Instr → Bool
  | .gcd | .egcd | .modinv | .mrtest | .modpow | .encrypt | .decrypt | .decryptCrt => true
  | .genprime bitlen => decide (bitlen ≤ 65535)
  | .keygen bitlen => decide (bitlen ≤ 65535)

/-- `i` has an encoding. -/
abbrev WellFormed (i : Instr) : Prop := i.wellFormed = true

end Sys2Proof
end

