-- ==== Sys2Proof/Word.lean ====
section
/-! DEFINITION. The bus word and its byte lanes (`00_scope.md` rule R8, `20_memory.md` rule R54). -/

namespace Sys2Proof

/-- One byte lane of the bus. -/
abbrev Byte := BitVec 8

/-- A 32-bit bus word, bits [31:0], bit 0 the least significant (rule R8). -/
abbrev Word := BitVec 32

end Sys2Proof
end

