-- ==== Sys2Proof/Decode.lean ====
section
/-! DEFINITION. The command word (`30_encoding.md`): its fields, the decoder, the encoder and the assembler. -/

namespace Sys2Proof

/-- OP = CMD[7:0] (rules R80, R81). -/
def opField (w : Word) : BitVec 8 := w.extractLsb' 0 8

/-- RSVD = CMD[15:8] (rules R80, R82). -/
def rsvdField (w : Word) : BitVec 8 := w.extractLsb' 8 8

/-- BITLEN = CMD[31:16] (rules R80, R83). -/
def bitlenField (w : Word) : BitVec 16 := w.extractLsb' 16 16

/-- Why a word is ILLEGAL: the four kinds of rule R87, and a byte list that is not one bus word. -/
inductive Illegal where
  /-- OP = 0x00. -/
  | opZero
  /-- OP in 0x0B to 0xFF. -/
  | opUnassigned
  /-- RSVD ≠ 0. -/
  | rsvdNonzero
  /-- BITLEN ≠ 0 on an opcode other than GENPRIME and KEYGEN. -/
  | strayBitlen
  /-- Not four byte lanes: a command is always one 32-bit word (rule R80). -/
  | notOneWord
  deriving DecidableEq, Repr

/-- What `decode` answers (rule R86). -/
inductive Decoded where
  /-- LEGAL(op, bitlen), as the command it names. -/
  | legal (i : Instr)
  /-- ILLEGAL, with the reason. -/
  | illegal (why : Illegal)
  deriving DecidableEq, Repr

/-- The opcode map of rule R84: the command an opcode selects, given its BITLEN. -/
def instrOf (op : BitVec 8) (bitlen : BitVec 16) : Option Instr :=
  match op.toNat with
  | 0x01 => some .gcd
  | 0x02 => some .egcd
  | 0x03 => some .modinv
  | 0x04 => some .mrtest
  | 0x05 => some (.genprime bitlen.toNat)
  | 0x06 => some (.keygen bitlen.toNat)
  | 0x07 => some .modpow
  | 0x08 => some .encrypt
  | 0x09 => some .decrypt
  | 0x0A => some .decryptCrt
  | _ => none

/-- GENPRIME and KEYGEN are the opcodes that take a BITLEN (rule R83). -/
def takesBitlen (op : BitVec 8) : Bool := op == 0x05 || op == 0x06

/-- Rule R86, check by check and in its order. -/
def decode (w : Word) : Decoded :=
  if opField w = 0 then .illegal .opZero
  else if 0x0A < (opField w).toNat then .illegal .opUnassigned
  else if rsvdField w ≠ 0 then .illegal .rsvdNonzero
  else if takesBitlen (opField w) = false ∧ bitlenField w ≠ 0 then .illegal .strayBitlen
  else
    match instrOf (opField w) (bitlenField w) with
    | some i => .legal i
    | none => .illegal .opUnassigned

/-- The opcode of a command (rule R84). -/
def opcode : Instr → Nat
  | .gcd => 0x01
  | .egcd => 0x02
  | .modinv => 0x03
  | .mrtest => 0x04
  | .genprime _ => 0x05
  | .keygen _ => 0x06
  | .modpow => 0x07
  | .encrypt => 0x08
  | .decrypt => 0x09
  | .decryptCrt => 0x0A

/-- The BITLEN of a command; "a mnemonic without an immediate has bitlen 0" (rule R88). -/
def bitlenOf : Instr → Nat
  | .genprime bitlen => bitlen
  | .keygen bitlen => bitlen
  | .gcd | .egcd | .modinv | .mrtest | .modpow | .encrypt | .decrypt | .decryptCrt => 0

/-- Rule R88: `enc(mnemonic, bitlen) = OP + bitlen * 2^16`. -/
def encode (i : Instr) : Word := BitVec.ofNat 32 (opcode i + bitlenOf i * 2 ^ 16)

/-- The byte lanes of a bus word, lane b carrying bits [8b+7 : 8b] (`20_memory.md` rule R54). -/
def lanesOf (w : Word) : List Byte :=
  [w.extractLsb' 0 8, w.extractLsb' 8 8, w.extractLsb' 16 8, w.extractLsb' 24 8]

/-- Decodes byte lanes, lane 0 first: one 32-bit word, and nothing shorter or longer, is a command (rules R57, R80). -/
def decodeLanes : List Byte → Decoded
  | [b0, b1, b2, b3] => decode (b3 ++ b2 ++ b1 ++ b0)
  | _ => .illegal .notOneWord

/-- The command the decoder reads from a table row's bits `w`, laid out as the bus carries them. -/
def decodeTableWord (nbits w : Nat) : Option Instr :=
  match decodeLanes (lanesOf (BitVec.ofNat 32 (w % 2 ^ nbits))) with
  | .legal i => some i
  | .illegal _ => none

/-- The mnemonics that take no immediate (rule R88). -/
def plainMnemonic (name : String) : Option Instr :=
  if name = "GCD" then some .gcd
  else if name = "EGCD" then some .egcd
  else if name = "MODINV" then some .modinv
  else if name = "MRTEST" then some .mrtest
  else if name = "MODPOW" then some .modpow
  else if name = "ENCRYPT" then some .encrypt
  else if name = "DECRYPT" then some .decrypt
  else if name = "DECRYPT_CRT" then some .decryptCrt
  else none

/-- Rule R88's assembler: it refuses an immediate outside 0 to 65535, and one on a mnemonic that takes none. DESIGN CHOICE
(assumption log 18): it also refuses GENPRIME and KEYGEN written without an immediate, which the rule leaves open. -/
def assemble (name : String) (imm : Option Nat) : Option Word :=
  match imm with
  | none => (plainMnemonic name).map encode
  | some bitlen =>
    if 65535 < bitlen then none
    else if name = "GENPRIME" then some (encode (.genprime bitlen))
    else if name = "KEYGEN" then some (encode (.keygen bitlen))
    else none

end Sys2Proof
end

