-- ==== Sys2Proof/Config.lean ====
section
/-! DEFINITION. What one implementation fixes (`00_scope.md` rule R6) and the free values (rule R11).
`W` and `BASE` are OPEN in the spec, so they are data of the machine: `State` carries a `Config` that no step changes, and
every statement ranges over all of them. -/

namespace Sys2Proof

/-- The OPEN parameters of rule R6: the operand width, given as `NW = W / 32`, and the window's base address. -/
structure Config where
  /-- `NW`, the number of 32-bit bus words of one operand register. -/
  nw   : Nat
  /-- `BASE`, the bus byte address of the window. -/
  base : Nat
  deriving DecidableEq, Repr

namespace Config

/-- `W`, the operand width in bits (rule R6). -/
def W (c : Config) : Nat := 32 * c.nw

/-- Rule R6: `W` is a multiple of 32 with 32 ≤ W ≤ 4096, and `BASE` is aligned to 16 KiB. -/
abbrev wf (c : Config) : Prop := 1 ≤ c.nw ∧ c.nw ≤ 128 ∧ c.base % 0x4000 = 0

/-- The parameters `State.reset` is given. DESIGN CHOICE (assumption log 1): the spec leaves both OPEN. W = 32, BASE = 0. -/
def platform : Config := { nw := 1, base := 0 }

/-- `ROUNDS_RESET` of rule R6. -/
def roundsReset : BitVec 8 := 40

/-- `E_CONST` of rule R6: the public exponent KEYGEN writes. -/
def eConst : Nat := 65537

/-- The free value behind a random draw (rule R11): draw number `k` of a run, before it is brought into the draw's range.
It has no body, so nothing can be proved of its values (assumption log 2). -/
opaque freeDraw : Nat → Nat

end Config

end Sys2Proof
end

