-- ==== Sys2Proof/Machine/State.lean ====
section
/-! DEFINITION. The state of the block (`10_state.md` rule R20), the agents around it that the model holds as plain data
(`00_scope.md` rule R7), and the state after reset (rule R39). -/

namespace Sys2Proof.Machine

/-- The names of the eleven operand registers, in the order of their index k (rule R21). -/
inductive OpReg where
  | A | B | M | P | Q | N | D | E | R | X | Y
  deriving DecidableEq, Repr

/-- The operand register file (rule R21): each register is an integer v with 0 ≤ v < 2^W (rule R22; the bound is an
invariant, `Sys2Proof.Machine.Inv`). -/
structure Regs where
  a : Nat
  b : Nat
  m : Nat
  p : Nat
  q : Nat
  n : Nat
  d : Nat
  e : Nat
  r : Nat
  x : Nat
  y : Nat
  deriving DecidableEq, Repr

/-- The values of STATUS.ERRCODE that are ever written (`60_exceptions.md` rule R205; 6 to 15 are "Never written"). -/
inductive ErrCode where
  /-- 0, no error. -/
  | none
  /-- 1, an illegal command word. -/
  | illegal
  /-- 2, a reduction by zero. -/
  | divzero
  /-- 3, a needed modular inverse does not exist. -/
  | noinv
  /-- 4, gcd(65537, phi) ≠ 1 in KEYGEN. -/
  | expnotinv
  /-- 5, BITLEN out of range. -/
  | badlen
  deriving DecidableEq, Repr

/-- STATUS (rule R30). Its reserved bits read 0 and hold nothing. -/
structure Status where
  /-- Bit 0, rule R32. -/
  busy    : Bool
  /-- Bit 1, rule R33. -/
  done    : Bool
  /-- Bit 2, rule R34. -/
  err     : Bool
  /-- Bit 3, rule R35. -/
  prime   : Bool
  /-- Bits 11:8, rule R34. -/
  errcode : ErrCode
  deriving DecidableEq, Repr

/-- ENG.phase (rule R37). -/
inductive Phase where
  /-- No command runs. -/
  | idle
  /-- A command runs; for KEYGEN, the search for p. -/
  | run
  /-- KEYGEN's search for q. -/
  | kgQ
  deriving DecidableEq, Repr

/-- The hidden engine state (rule R37). -/
structure Engine where
  /-- ENG.phase. -/
  phase   : Phase
  /-- ENG.op, latched from CMD[7:0]. -/
  op      : BitVec 8
  /-- ENG.bitlen, latched from CMD[31:16]. -/
  bitlen  : BitVec 16
  /-- ENG.kg_p, meaningful only in phase KG_Q. -/
  kgP     : Nat
  /-- GENPRIME's or KEYGEN's first engine step, the BITLEN check, has been taken. DEDUCED (assumption log 3): rules R127,
  R140 and R200 tell the first step from the attempts, and no field of rule R37 does. -/
  checked : Bool
  deriving DecidableEq, Repr

/-- The entropy source (rules R7, R11, R38): the values it has lined up, each a free input, and how many were taken.
The model's own fields (assumption log 2). -/
structure Entropy where
  /-- The next values the source gives, in order; when none is left, `Config.freeDraw taken` is next. -/
  queue : List Nat
  /-- How many draws have been made. -/
  taken : Nat
  deriving DecidableEq, Repr

/-- The width of a bus access (`20_memory.md` rule R57). -/
inductive AccessSize where
  | byte | half | word | dword
  deriving DecidableEq, Repr

/-- A host bus transaction at an absolute byte address (rules R50, R55, R56). -/
inductive Txn where
  /-- A read. -/
  | read (addr : Nat) (size : AccessSize)
  /-- A write; bit b of `strobes` enables byte lane b, and `data` is what the 32 data bits carry. -/
  | write (addr : Nat) (size : AccessSize) (strobes : BitVec 4) (data : Word)
  deriving DecidableEq, Repr

/-- What happens next around the block: one entry of the total order of rule R61. -/
inductive Event where
  /-- A bus transaction of the host. -/
  | bus (t : Txn)
  /-- The host's POLL operation (`30_encoding.md` rule R89), at an absolute address. -/
  | poll (addr : Nat) (mask value : Word)
  /-- One engine step (`60_exceptions.md` rule R200). -/
  | engine
  /-- The reset event (`70_reset_and_hazards.md` rule R230), and the transaction it cuts off, if any. -/
  | reset (cutOff : Option Txn)
  deriving DecidableEq, Repr

/-- Why a transaction is answered with a bus error: the cases of rule R58. -/
inductive BusError where
  /-- A misaligned access. -/
  | misaligned
  /-- An access that is not a full 32-bit one: another width, or a partial byte-strobe write. -/
  | notWord
  /-- An unmapped offset. -/
  | unmapped
  /-- An operand slot j ≥ NW. -/
  | noSlot
  /-- A write to ID, VERSION or PARAM. -/
  | readOnly
  /-- An access the busy interlock refuses. -/
  | busy
  deriving DecidableEq, Repr

/-- The answer to the host's last transaction. -/
inductive Response where
  /-- A read's 32-bit word. -/
  | data (w : Word)
  /-- A write was done. -/
  | written
  /-- The bus error response: the transaction is a fault of the host's program (rules R58, R207, R222). -/
  | busError (why : BusError)
  /-- The address is outside the window: the block sees no transaction (rule R50). -/
  | notSelected
  /-- The transaction was cut off by a reset: its response is the platform's (rule R230). -/
  | cutOff
  deriving DecidableEq, Repr

/-- The block, its configuration, and the agents around it. -/
structure State where
  /-- W and BASE; no step changes them. -/
  cfg      : Config
  /-- The operand registers. -/
  regs     : Regs
  /-- CTRL.IRQ_EN (rule R27). -/
  irqEn    : Bool
  /-- CFG.ROUNDS (rule R28). -/
  rounds   : BitVec 8
  /-- CMD, the last command word accepted (rule R29). -/
  cmd      : Word
  /-- STATUS (rule R30). -/
  status   : Status
  /-- The hidden engine state (rule R37). -/
  eng      : Engine
  /-- The entropy source. The model's own field. -/
  entropy  : Entropy
  /-- What the host and the engine do next, in order. The model's own field (assumption log 4). -/
  schedule : List Event
  /-- The answer to the last transaction. The model's own field (assumption log 5). -/
  response : Option Response
  /-- The host has seen a bus error in this run (rule R245). The model's own field (assumption log 5). -/
  faulted  : Bool
  deriving DecidableEq, Repr

/-- Why the machine stops. No state with the invariant `Inv` reaches one of these. -/
inductive Fault where
  /-- Raised by an engine step when ENG.phase is not IDLE but ENG.op and ENG.bitlen are not those of a legal command: the
  spec gives such a state no step, because acceptance latches legal commands only (rule R201). SAFE: no run reaches it. -/
  | engineOpIllegal (op : BitVec 8) (bitlen : BitVec 16)
  deriving DecidableEq, Repr

/-- Why an instruction has no meaning. -/
inductive Refusal where
  /-- Raised by `exec` for a command that has no meaning yet. No arm raises it. SAFE: the machine stops where the hardware
  goes on. -/
  | notModelled (mnemonic : String)
  deriving DecidableEq, Repr

/-- What a step of this machine answers. -/
abbrev StepOutcome := Host.Outcome State Fault Refusal

/-- Rule R39: every operand register is 0. -/
def Regs.zero : Regs :=
  { a := 0, b := 0, m := 0, p := 0, q := 0, n := 0, d := 0, e := 0, r := 0, x := 0, y := 0 }

/-- Rule R39: STATUS is all 0. -/
def Status.zero : Status := { busy := false, done := false, err := false, prime := false, errcode := .none }

/-- Rule R39: the engine is IDLE and its latches are 0. -/
def Engine.zero : Engine := { phase := .idle, op := 0, bitlen := 0, kgP := 0, checked := false }

/-- The state after reset (rule R39) of a block with parameters `c`. Nothing is pending around it: DESIGN CHOICE
(assumption logs 2, 4 and 5) for the model's own fields. -/
def State.resetWith (c : Config) : State :=
  { cfg := c, regs := Regs.zero, irqEn := false, rounds := Config.roundsReset, cmd := 0, status := Status.zero,
    eng := Engine.zero, entropy := { queue := [], taken := 0 }, schedule := [], response := none, faulted := false }

/-- The machine right after reset. -/
def State.reset : State := State.resetWith Config.platform

end Sys2Proof.Machine
end

