-- ==== Sys2Proof/Machine/Flags.lean ====
section
/-! DEFINITION. STATUS: how it is read, and every way it changes (`10_state.md` rules R30 to R36, `60_exceptions.md` rules
R201 to R205). -/

namespace Sys2Proof.Machine

/-- The number of an error code (rule R205). -/
def ErrCode.code : ErrCode → Nat
  | .none => 0
  | .illegal => 1
  | .divzero => 2
  | .noinv => 3
  | .expnotinv => 4
  | .badlen => 5

/-- Rule R55: `BUSY + 2*DONE + 4*ERR + 8*PRIME + 256*ERRCODE`. -/
def Status.word (st : Status) : Word :=
  BitVec.ofNat 32
    (st.busy.toNat + 2 * st.done.toNat + 4 * st.err.toNat + 8 * st.prime.toNat + 256 * st.errcode.code)

/-- `irq = STATUS.DONE AND CTRL.IRQ_EN` (rules R36, R208): derived, never stored. -/
def State.irq (s : State) : Bool := s.status.done && s.irqEn

/-- Acceptance of any word clears DONE, ERR, ERRCODE and PRIME (rule R201). -/
def Status.cleared (st : Status) : Status :=
  { st with done := false, err := false, errcode := .none, prime := false }

/-- Acceptance of a legal word sets BUSY (rules R32, R201). -/
def Status.started (st : Status) : Status := { st.cleared with busy := true }

/-- Acceptance of an illegal word completes it (rules R201, R202). -/
def Status.refusedWord (st : Status) : Status :=
  { st.cleared with err := true, errcode := .illegal, done := true }

/-- The commit's status (rule R203). -/
def Status.committed (st : Status) : Status :=
  { st with err := false, errcode := .none, busy := false, done := true }

/-- The error completion's status (rule R204). -/
def Status.failed (st : Status) (code : ErrCode) : Status :=
  { st with err := true, errcode := code, busy := false, done := true }

/-- A STATUS write with data[1] = 1 clears DONE, ERR and ERRCODE; it never writes BUSY or PRIME (rule R30). -/
def Status.acknowledged (st : Status) : Status :=
  { st with done := false, err := false, errcode := .none }

end Sys2Proof.Machine
end

