-- ==== Sys2Proof/Machine/Operands.lean ====
section
/-! DEFINITION. The operands of commands and of bus accesses: the register file (`10_state.md` rules R21, R22), its word view
(`20_memory.md` rules R52, R53) and the implicit operands of each command (`30_encoding.md` rule R85). -/

namespace Sys2Proof.Machine

/-- The index k of an operand register (rule R21). -/
def OpReg.index : OpReg → Nat
  | .A => 0 | .B => 1 | .M => 2 | .P => 3 | .Q => 4 | .N => 5
  | .D => 6 | .E => 7 | .R => 8 | .X => 9 | .Y => 10

/-- `reg(k)` of rule R55. The operand window holds the indexes 0 to 10 only (rule R52). -/
def regAt : Nat → OpReg
  | 0 => .A | 1 => .B | 2 => .M | 3 => .P | 4 => .Q | 5 => .N
  | 6 => .D | 7 => .E | 8 => .R | 9 => .X | _ => .Y

/-- All operand registers, in the order of their index. -/
def OpReg.all : List OpReg := [.A, .B, .M, .P, .Q, .N, .D, .E, .R, .X, .Y]

/-- `V[r]` (`00_scope.md` rule R12). -/
def Regs.get (rs : Regs) : OpReg → Nat
  | .A => rs.a | .B => rs.b | .M => rs.m | .P => rs.p | .Q => rs.q | .N => rs.n
  | .D => rs.d | .E => rs.e | .R => rs.r | .X => rs.x | .Y => rs.y

/-- `V[r] <- v` (rule R12): "None has a hardwired value" and none aliases another (rule R21). -/
def Regs.set (rs : Regs) (r : OpReg) (v : Nat) : Regs :=
  match r with
  | .A => { rs with a := v }
  | .B => { rs with b := v }
  | .M => { rs with m := v }
  | .P => { rs with p := v }
  | .Q => { rs with q := v }
  | .N => { rs with n := v }
  | .D => { rs with d := v }
  | .E => { rs with e := v }
  | .R => { rs with r := v }
  | .X => { rs with x := v }
  | .Y => { rs with y := v }

/-- A command's held writes, applied all at once (`60_exceptions.md` rule R203). -/
def Regs.apply (rs : Regs) (writes : List (OpReg × Nat)) : Regs :=
  writes.foldl (fun acc w => acc.set w.1 w.2) rs

/-- `word_j` of a register's value (rule R53), as an integer. -/
def wordOf (v j : Nat) : Nat := v / 2 ^ (32 * j) % 2 ^ 32

/-- Rule R56: the register's value after word `j` is replaced by `data`. -/
def putWord (v j : Nat) (data : Word) : Nat :=
  v - wordOf v j * 2 ^ (32 * j) + data.toNat * 2 ^ (32 * j)

/-- Rule R53's sum: the value whose words, word 0 first, are `ws`. -/
def valueOfWords : List Word → Nat
  | [] => 0
  | w :: ws => w.toNat + 2 ^ 32 * valueOfWords ws

/-- `tc_W(v)` of rule R12: the W-bit two's-complement encoding. -/
def tcW (W : Nat) (v : Int) : Nat := (v % (2 ^ W : Int)).toNat

/-- `sext_W(u)` of rule R12: the inverse reading. -/
def sextW (W : Nat) (u : Nat) : Int :=
  if u < 2 ^ (W - 1) then (u : Int) else (u : Int) - 2 ^ W

/-- The operand registers a command reads (rule R85). -/
def readsOf : Instr → List OpReg
  | .gcd => [.A, .B]
  | .egcd => [.A, .B]
  | .modinv => [.A, .M]
  | .mrtest => [.A]
  | .genprime _ => []
  | .keygen _ => []
  | .modpow => [.A, .B, .M]
  | .encrypt => [.A, .E, .N]
  | .decrypt => [.A, .D, .N]
  | .decryptCrt => [.A, .D, .N, .P, .Q]

/-- The operand registers a command writes (rule R85). -/
def writesOf : Instr → List OpReg
  | .gcd => [.R]
  | .egcd => [.R, .X, .Y]
  | .modinv => [.R]
  | .mrtest => [.R]
  | .genprime _ => [.R]
  | .keygen _ => [.E, .N, .D, .P, .Q]
  | .modpow => [.R]
  | .encrypt => [.R]
  | .decrypt => [.R]
  | .decryptCrt => [.R]

end Sys2Proof.Machine
end

