-- ==== Sys2Proof/Machine/Ops.lean ====
section
/-! DEFINITION. The operations every command and every agent shares: the random draw, the commit, the error completion (this
block's analogue of taking an exception, `60_exceptions.md` rule R210), the acknowledgement (its analogue of the return,
rule R211), command acceptance, the bus error and the reset event. -/

namespace Sys2Proof.Machine

/-- Brings a raw value of the entropy source into `lo` to `hi`: a value in range stands for itself, any other for a value in
range. Every value in range is reached, and none outside it (rule R11; assumption log 2). -/
def intoRange (lo hi v : Nat) : Nat :=
  if lo ≤ v ∧ v ≤ hi then v else lo + v % (hi + 1 - lo)

/-- The raw value the entropy source gives next: the head of its queue or, when the queue is empty, a free value. -/
def Entropy.next (en : Entropy) : Nat :=
  match en.queue with
  | v :: _ => v
  | [] => Config.freeDraw en.taken

/-- The source after one draw. -/
def Entropy.advance (en : Entropy) : Entropy :=
  { queue := en.queue.tail, taken := en.taken + 1 }

/-- `draw(lo, hi)` (rule R11): some value in range, both bounds included; each call is a separate draw. -/
def Entropy.draw (en : Entropy) (lo hi : Nat) : Nat × Entropy :=
  (intoRange lo hi en.next, en.advance)

/-- The engine after its command ended: phase IDLE, its latches kept (rules R203, R204). -/
def Engine.ended (e : Engine) : Engine := { e with phase := .idle, checked := false }

/-- `complete()` (rule R203): every held write and the completion status, in one step. -/
def complete (writes : List (OpReg × Nat)) (s : State) : State :=
  { s with regs := s.regs.apply writes, status := s.status.committed, eng := s.eng.ended }

/-- `complete()` of MRTEST: the commit also writes STATUS.PRIME, with the value written to R (rules R35, R125, R203). -/
def completePrime (t : Bool) (s : State) : State :=
  { s with regs := s.regs.set .R t.toNat, status := { s.status.committed with prime := t }, eng := s.eng.ended }

/-- `raise Err(code)` (rule R204): the held writes are discarded and the status records the code. -/
def raiseErr (code : ErrCode) (s : State) : State :=
  { s with status := s.status.failed code, eng := s.eng.ended }

/-- The host's acknowledgement of a completion (rules R30, R211). -/
def acknowledge (s : State) : State := { s with status := s.status.acknowledged }

/-- `CMD <- w; acceptCommand(w)` (rules R29, R201, R202): an illegal word completes at once and leaves the engine as it is;
a legal one is latched and makes the engine busy. -/
def acceptCommand (w : Word) (s : State) : State :=
  match decode w with
  | .illegal _ => { s with cmd := w, status := s.status.refusedWord }
  | .legal _ =>
    { s with cmd := w, status := s.status.started,
             eng := { s.eng with phase := .run, op := opField w, bitlen := bitlenField w, checked := false } }

/-- `busError()` (rules R58, R207): the error response is all that happens. -/
def busError (why : BusError) (s : State) : State :=
  { s with response := some (.busError why), faulted := true }

/-- The reset event (rules R39, R230, R231): every piece of the block's state takes its reset value; the parameters, the
entropy source and the host's program are not the block's. -/
def resetEvent (s : State) : State :=
  { State.resetWith s.cfg with
      entropy := s.entropy, schedule := s.schedule, response := s.response, faulted := s.faulted }

/-- The word whose command the engine runs, rebuilt from its latches (rule R37). -/
def Engine.word (e : Engine) : Word := BitVec.ofNat 32 (e.op.toNat + e.bitlen.toNat * 2 ^ 16)

end Sys2Proof.Machine
end

