-- ==== Sys2Proof/Machine/Bus.lean ====
section
/-! DEFINITION. The register window and the host's transactions (`20_memory.md`). -/

namespace Sys2Proof.Machine

/-- The ID register's constant (`10_state.md` rule R31). -/
def idValue : Word := 0x4D525341

/-- The VERSION register's constant (rule R31). -/
def versionValue : Word := 0x00010000

/-- The PARAM register: `zext_32(W)` (rule R31). -/
def paramValue (c : Config) : Word := BitVec.ofNat 32 c.W

/-- The offset of word `j` of operand register `r` (rule R52). -/
def regOffset (r : OpReg) (j : Nat) : Nat := 0x1000 + 0x200 * r.index + 4 * j

/-- What stands at an aligned offset of the window (rule R51). -/
inductive Place where
  | id | version | param | ctrl | cfg | cmd | status
  | operand (r : OpReg) (j : Nat)
  | noSlot
  | unmapped
  deriving DecidableEq, Repr

/-- The map of rules R51 and R52 on an aligned offset. -/
def placeAt (c : Config) (off : Nat) : Place :=
  if off = 0x000 then .id
  else if off = 0x004 then .version
  else if off = 0x008 then .param
  else if off = 0x00C then .ctrl
  else if off = 0x010 then .cfg
  else if off = 0x014 then .cmd
  else if off = 0x018 then .status
  else if 0x1000 ≤ off ∧ off < 0x2600 then
    if (off - 0x1000) % 0x200 / 4 < c.nw then
      .operand (regAt ((off - 0x1000) / 0x200)) ((off - 0x1000) % 0x200 / 4)
    else .noSlot
  else .unmapped

/-- What an access answers: a result, or the cause of its bus error. -/
inductive Answer (α : Type) where
  | ok (a : α)
  | busError (why : BusError)
  deriving DecidableEq, Repr

/-- `MemRead(off, 4)` (rule R55). It changes nothing (rule R59). -/
def memRead (off : Nat) (s : State) : Answer Word :=
  if off % 4 ≠ 0 then .busError .misaligned
  else
    match placeAt s.cfg off with
    | .id => .ok idValue
    | .version => .ok versionValue
    | .param => .ok (paramValue s.cfg)
    | .ctrl => .ok (BitVec.ofNat 32 s.irqEn.toNat)
    | .cfg => .ok (s.rounds.setWidth 32)
    | .cmd => .ok s.cmd
    | .status => .ok s.status.word
    | .operand r j =>
      if s.status.busy then .busError .busy else .ok (BitVec.ofNat 32 (wordOf (s.regs.get r) j))
    | .noSlot => .busError .noSlot
    | .unmapped => .busError .unmapped

/-- `MemWrite(off, 4, data)` (rule R56). -/
def memWrite (off : Nat) (data : Word) (s : State) : Answer State :=
  if off % 4 ≠ 0 then .busError .misaligned
  else
    match placeAt s.cfg off with
    | .id | .version | .param => .busError .readOnly
    | .ctrl => .ok { s with irqEn := data.getLsbD 0 }
    | .cfg => if s.status.busy then .busError .busy else .ok { s with rounds := data.setWidth 8 }
    | .cmd => if s.status.busy then .busError .busy else .ok (acceptCommand data s)
    | .status => .ok (if data.getLsbD 1 then acknowledge s else s)
    | .operand r j =>
      if s.status.busy then .busError .busy
      else .ok { s with regs := s.regs.set r (putWord (s.regs.get r) j data) }
    | .noSlot => .busError .noSlot
    | .unmapped => .busError .unmapped

/-- The window of rule R50: the offset of a bus address, if the block decodes it. -/
def offsetOf (c : Config) (addr : Nat) : Option Nat :=
  if c.base ≤ addr ∧ addr < c.base + 0x4000 then some (addr - c.base) else none

/-- A read inside the window: only a 32-bit one is answered (rule R57). -/
def answerRead (off : Nat) (size : AccessSize) (s : State) : State :=
  if size ≠ .word then busError .notWord s
  else
    match memRead off s with
    | .ok w => { s with response := some (.data w) }
    | .busError why => busError why s

/-- A write inside the window: only a 32-bit one with all four byte strobes is answered (rule R57). -/
def answerWrite (off : Nat) (size : AccessSize) (strobes : BitVec 4) (data : Word) (s : State) : State :=
  if size ≠ .word ∨ strobes ≠ 0xF then busError .notWord s
  else
    match memWrite off data s with
    | .ok t => { t with response := some .written }
    | .busError why => busError why s

/-- One transaction, performed whole (rules R60, R61). Outside the window the block sees none (rule R50). -/
def transact (t : Txn) (s : State) : State :=
  match t with
  | .read addr size =>
    match offsetOf s.cfg addr with
    | none => { s with response := some .notSelected }
    | some off => answerRead off size s
  | .write addr size strobes data =>
    match offsetOf s.cfg addr with
    | none => { s with response := some .notSelected }
    | some off => answerWrite off size strobes data s

end Sys2Proof.Machine
end

