-- ==== Sys2Proof/Machine/Euclid.lean ====
section
/-! DEFINITION. The extended_euclidean_gcd unit (`40_euclid.md`): GCD, EGCD, MODINV. -/

namespace Sys2Proof.Machine

/-- The loop of rule R100, with fuel; `b` strictly decreases, so `b` rounds suffice. -/
def gcdLoop : Nat → Nat → Nat → Nat
  | 0, a, _ => a
  | fuel + 1, a, b => if b = 0 then a else gcdLoop fuel b (a % b)

/-- `gcd_f(a, b)` (rule R100). -/
def gcdF (a b : Nat) : Nat := gcdLoop b a b

/-- The recursion of rule R102, with fuel; `b` strictly decreases. -/
def egcdRec : Nat → Nat → Nat → Nat × Int × Int
  | 0, a, _ => (a, 1, 0)
  | fuel + 1, a, b =>
    if b = 0 then (a, 1, 0)
    else
      let t := egcdRec fuel b (a % b)
      (t.1, t.2.2, t.2.1 - (a / b : Nat) * t.2.2)

/-- `egcd_f(a, b)` (rule R102): the triple (g, x, y). -/
def egcdF (a b : Nat) : Nat × Int × Int := egcdRec b a b

/-- `modinv_f(a, m)` (rule R104): `x mod m` with the floor `mod` of rule R10, so never negative. -/
def modinvF (a m : Nat) : Nat := ((egcdF a m).2.1 % (m : Int)).toNat

/-- GCD (rule R101). -/
def execGcd (s : State) : StepOutcome :=
  .next (complete [(.R, gcdF (s.regs.get .A) (s.regs.get .B))] s)

/-- EGCD (rule R103): X and Y are written in two's complement. -/
def execEgcd (s : State) : StepOutcome :=
  let t := egcdF (s.regs.get .A) (s.regs.get .B)
  .next (complete [(.R, t.1), (.X, tcW s.cfg.W t.2.1), (.Y, tcW s.cfg.W t.2.2)] s)

/-- MODINV (rule R105); DIVZERO is checked before NOINV (rule R206). -/
def execModinv (s : State) : StepOutcome :=
  if s.regs.get .M = 0 then .next (raiseErr .divzero s)
  else if gcdF (s.regs.get .A) (s.regs.get .M) ≠ 1 then .next (raiseErr .noinv s)
  else .next (complete [(.R, modinvF (s.regs.get .A) (s.regs.get .M))] s)

end Sys2Proof.Machine
end

