-- ==== Sys2Proof/Machine/Modexp.lean ====
section
/-! DEFINITION. The modular_exponentiation_engine unit (`43_modexp.md`): MODPOW. -/

namespace Sys2Proof.Machine

/-- The loop of rule R160, with fuel: once per bit of `e`, so `e` rounds suffice. -/
def modpowLoop : Nat → Nat → Nat → Nat → Nat → Nat
  | 0, acc, _, _, _ => acc
  | fuel + 1, acc, b, e, m =>
    if e = 0 then acc
    else modpowLoop fuel (if e % 2 = 1 then acc * b % m else acc) (b * b % m) (e / 2) m

/-- `modpow_f(b, e, m)` (rule R160): the accumulator starts at 1 and the base is reduced up front. -/
def modpowF (b e m : Nat) : Nat := modpowLoop e 1 (b % m) e m

/-- MODPOW (rule R162). -/
def execModpow (s : State) : StepOutcome :=
  if s.regs.get .M = 0 then .next (raiseErr .divzero s)
  else .next (complete [(.R, modpowF (s.regs.get .A) (s.regs.get .B) (s.regs.get .M))] s)

end Sys2Proof.Machine
end

