-- ==== Sys2Proof/Machine/Primality.lean ====
section
/-! DEFINITION. The miller_rabin_tester unit (`41_primality.md`): MRTEST, GENPRIME, and the prime-search attempt KEYGEN
shares. -/

namespace Sys2Proof.Machine

/-- Rule R120's halving loop, with fuel: from (s, r) to (s', r') with s = 2^(r'-r) * s' and s' odd. -/
def halve : Nat → Nat → Nat → Nat × Nat
  | 0, s, r => (s, r)
  | fuel + 1, s, r => if s % 2 = 0 then halve fuel (s / 2) (r + 1) else (s, r)

/-- (s, r) with n - 1 = 2^r * s and s odd (rule R120). -/
def oddPart (n : Nat) : Nat × Nat := halve n (n - 1) 0

/-- Rule R120's inner loop: at most `k` squarings of `x`, true as soon as one gives n - 1. -/
def reachesMinusOne : Nat → Nat → Nat → Bool
  | 0, _, _ => false
  | k + 1, x, n => if x * x % n = n - 1 then true else reachesMinusOne k (x * x % n) n

/-- One round of rule R120: whether the witness `a` passes. -/
def witnessPasses (n s r a : Nat) : Bool :=
  let x := modpowF a s n
  if x = 1 ∨ x = n - 1 then true else reachesMinusOne (r - 1) x n

/-- Rule R120's rounds: one witness drawn per round, from 2 to n - 1 (rule R122); a failing round ends them. -/
def mrRounds : Nat → Nat → Nat → Nat → Entropy → Bool × Entropy
  | 0, _, _, _, en => (true, en)
  | rounds + 1, n, s, r, en =>
    let d := en.draw 2 (n - 1)
    if witnessPasses n s r d.1 then mrRounds rounds n s r d.2 else (false, d.2)

/-- `mr_f(n, rounds)` (rule R120): the answer, and the entropy source after the draws it made. -/
def mrF (n rounds : Nat) (en : Entropy) : Bool × Entropy :=
  if n ≤ 1 then (false, en)
  else if n = 2 then (true, en)
  else if n % 2 = 0 then (false, en)
  else mrRounds rounds n (oddPart n).1 (oddPart n).2 en

/-- One attempt of rule R126's sampler at an `L`-bit candidate. -/
structure Attempt where
  /-- The candidate drawn. -/
  candidate : Nat
  /-- Whether `mr_f` answered 1 for it. -/
  passed    : Bool
  /-- The entropy source afterwards. -/
  entropy   : Entropy
  deriving DecidableEq, Repr

/-- `c <- draw(0, 2^L - 1)`, then `mr_f(c, rounds)` (rule R126). -/
def attempt (L rounds : Nat) (en : Entropy) : Attempt :=
  let d := en.draw 0 (2 ^ L - 1)
  let t := mrF d.1 rounds d.2
  { candidate := d.1, passed := t.1, entropy := t.2 }

/-- MRTEST (rule R125). -/
def execMrtest (s : State) : StepOutcome :=
  let t := mrF (s.regs.get .A) s.rounds.toNat s.entropy
  .next (completePrime t.1 { s with entropy := t.2 })

/-- One attempt of GENPRIME (rule R127): it commits the candidate or, if that fails, changes no architectural state. -/
def genprimeAttempt (L : Nat) (s : State) : State :=
  let t := attempt L s.rounds.toNat s.entropy
  if t.passed then complete [(.R, t.candidate)] { s with entropy := t.entropy } else { s with entropy := t.entropy }

/-- GENPRIME (rule R127): the first engine step checks BITLEN, each later one is an attempt. -/
def execGenprime (L : Nat) (s : State) : StepOutcome :=
  if s.eng.checked then .next (genprimeAttempt L s)
  else if s.cfg.W < L then .next (raiseErr .badlen s)
  else .next { s with eng := { s.eng with checked := true } }

end Sys2Proof.Machine
end

