-- ==== Sys2Proof/Machine/Keygen.lean ====
section
/-! DEFINITION. The rsa_keygen_engine unit (`42_keygen.md`): KEYGEN. -/

namespace Sys2Proof.Machine

/-- Rule R140's first engine step: BADLEN for L = 0 or L > W, else the search for p begins. -/
def keygenCheck (L : Nat) (s : State) : State :=
  if L = 0 ∨ s.cfg.W < L then raiseErr .badlen s
  else { s with eng := { s.eng with phase := .run, checked := true } }

/-- Rule R140's p-attempt: a passing candidate is held in ENG.kg_p and the search for q begins. -/
def keygenAttemptP (L : Nat) (s : State) : State :=
  let t := attempt (L / 2) s.rounds.toNat s.entropy
  if t.passed then { s with entropy := t.entropy, eng := { s.eng with kgP := t.candidate, phase := .kgQ } }
  else { s with entropy := t.entropy }

/-- Rule R140's key arithmetic on two primes: EXPNOTINV (rule R143), or the five writes of rule R145. -/
def keygenFinish (p q : Nat) (s : State) : State :=
  let phi := (p - 1) * (q - 1)
  if gcdF Config.eConst phi ≠ 1 then raiseErr .expnotinv s
  else complete [(.E, Config.eConst), (.N, p * q), (.D, modinvF Config.eConst phi), (.P, p), (.Q, q)] s

/-- Rule R140's q-attempt. -/
def keygenAttemptQ (L : Nat) (s : State) : State :=
  let t := attempt (L / 2) s.rounds.toNat s.entropy
  if t.passed then keygenFinish s.eng.kgP t.candidate { s with entropy := t.entropy }
  else { s with entropy := t.entropy }

/-- KEYGEN (rule R140): the check, the search for p, the search for q. -/
def execKeygen (L : Nat) (s : State) : StepOutcome :=
  if s.eng.phase = .kgQ then .next (keygenAttemptQ L s)
  else if s.eng.checked then .next (keygenAttemptP L s)
  else .next (keygenCheck L s)

end Sys2Proof.Machine
end

