-- ==== Sys2Proof/Machine/RsaCrypt.lean ====
section
/-! DEFINITION. The rsa_crt_decrypt_accelerator unit (`44_rsa_crypt.md`): ENCRYPT, DECRYPT, DECRYPT_CRT. -/

namespace Sys2Proof.Machine

/-- One unit by the direct path (rules R180, R181): the register `key` holds the exponent; nothing is validated (R182). -/
def unitDirect (key : OpReg) (s : State) : State :=
  if s.regs.get .N = 0 then raiseErr .divzero s
  else complete [(.R, modpowF (s.regs.get .A) (s.regs.get key) (s.regs.get .N))] s

/-- ENCRYPT (rule R180). -/
def execEncrypt (s : State) : StepOutcome := .next (unitDirect .E s)

/-- DECRYPT (rule R181). -/
def execDecrypt (s : State) : StepOutcome := .next (unitDirect .D s)

/-- `crt_checks(n, p, q)` (rule R183): every DIVZERO case before NOINV. -/
def crtChecks (n p q : Nat) : ErrCode :=
  if p ≤ 1 ∨ q ≤ 1 ∨ n = 0 then .divzero
  else if gcdF q p ≠ 1 then .noinv
  else .none

/-- `crt_f(c, d, n, p, q)` (rule R184): `m1 - m2` may be negative, and the `mod` that follows is a floor `mod`. -/
def crtF (c d n p q : Nat) : Nat :=
  let dp := d % (p - 1)
  let dq := d % (q - 1)
  let qinv := modinvF q p
  let m1 := modpowF c dp p
  let m2 := modpowF c dq q
  let h := ((qinv : Int) * ((m1 : Int) - (m2 : Int)) % (p : Int)).toNat
  (m2 + h * q) % n

/-- DECRYPT_CRT (rule R185). -/
def execDecryptCrt (s : State) : StepOutcome :=
  match crtChecks (s.regs.get .N) (s.regs.get .P) (s.regs.get .Q) with
  | .none =>
    .next (complete
      [(.R, crtF (s.regs.get .A) (s.regs.get .D) (s.regs.get .N) (s.regs.get .P) (s.regs.get .Q))] s)
  | code => .next (raiseErr code s)

end Sys2Proof.Machine
end

