-- ==== Sys2Proof/Machine/Dispatch.lean ====
section
/-! DEFINITION. One engine step of a command (`60_exceptions.md` rule R200): the meaning of each constructor of `Instr`. -/

namespace Sys2Proof.Machine

def exec (i : Instr) (s : State) : Host.Outcome State Fault Refusal :=
  match i with
  -- extended_euclidean_gcd
  | .gcd => Sys2Proof.Machine.execGcd s
  | .egcd => Sys2Proof.Machine.execEgcd s
  | .modinv => Sys2Proof.Machine.execModinv s
  -- miller_rabin_tester
  | .mrtest => Sys2Proof.Machine.execMrtest s
  | .genprime bitlen => Sys2Proof.Machine.execGenprime bitlen s
  -- rsa_keygen_engine
  | .keygen bitlen => Sys2Proof.Machine.execKeygen bitlen s
  -- modular_exponentiation_engine
  | .modpow => Sys2Proof.Machine.execModpow s
  -- rsa_crt_decrypt_accelerator
  | .encrypt => Sys2Proof.Machine.execEncrypt s
  | .decrypt => Sys2Proof.Machine.execDecrypt s
  | .decryptCrt => Sys2Proof.Machine.execDecryptCrt s

end Sys2Proof.Machine
end

