-- ==== Sys2Proof/Machine/Agents.lean ====
section
/-! DEFINITION. The agents' steps (`00_scope.md` rule R7): the engine's, and what each entry of the schedule does. -/

namespace Sys2Proof.Machine

/-- One engine step (`60_exceptions.md` rule R200): none in phase IDLE; otherwise one step of the latched command. -/
def engineStep (s : State) : StepOutcome :=
  if s.eng.phase = .idle then .next s
  else
    match decode s.eng.word with
    | .legal i => exec i s
    | .illegal _ => .fault (.engineOpIllegal s.eng.op s.eng.bitlen)

/-- One read of the host's POLL (`30_encoding.md` rule R89). A read that does not match leaves the POLL next, after an engine
step (assumption log 4); a bus error ends it, as a fault of the host's program. -/
def pollStep (addr : Nat) (mask value : Word) (s : State) : State :=
  let t := transact (.read addr .word) s
  match t.response with
  | some (.data w) =>
    if w &&& mask = value then t else { t with schedule := .engine :: .poll addr mask value :: t.schedule }
  | _ => t

/-- The reset event, and the response of the transaction it cuts off, which has no effect (`70_reset_and_hazards.md` rule
R230). -/
def resetStep (cutOff : Option Txn) (s : State) : State :=
  match cutOff with
  | none => resetEvent s
  | some _ => { resetEvent s with response := some .cutOff }

/-- An entry that is, or cuts off, a bus operation of the host; the engine's steps and the reset input are not the host's
(`00_scope.md` rule R7). -/
def Event.isHostOperation : Event → Bool
  | .bus _ | .poll _ _ _ | .reset (some _) => true
  | .engine | .reset none => false

/-- What one entry of the schedule does, once it has been taken from it. -/
def perform (e : Event) (s : State) : StepOutcome :=
  match e with
  | .bus t => .next (transact t s)
  | .poll addr mask value => .next (pollStep addr mask value s)
  | .engine => engineStep s
  | .reset cutOff => .next (resetStep cutOff s)

/-- The state with its first command word accepted and nothing else pending: what a host's CMD write leaves. -/
def withAcceptedWord (w : Word) (s : State) : State := acceptCommand w { s with schedule := [] }

end Sys2Proof.Machine
end

