-- ==== Sys2Proof/Machine/Step.lean ====
section
/-! DEFINITION. One step of the block and the agents around it (`20_memory.md` rule R61). -/

namespace Sys2Proof.Machine

/-- One step: the next entry of the schedule or, when nothing is scheduled, one engine step (weak fairness, `60_exceptions.md`
rule R200); an idle block with nothing scheduled holds its state (rule R219). -/
def step (s : State) : Host.Outcome State Fault Refusal :=
  match s.schedule with
  | [] => engineStep s
  | e :: rest => perform e { s with schedule := rest }

/-- `s` after the host's CMD write of the word `w` was accepted, with the engine's step next (assumption log 6): the block
fetches nothing (rule R65), and a command starts when its word is accepted (rule R201). -/
def State.withFetchWord (s : State) (nbits w : Nat) : State :=
  withAcceptedWord (BitVec.ofNat 32 (w % 2 ^ nbits)) s

end Sys2Proof.Machine
end

