-- ==== Sys2Proof/Machine/HostProgram.lean ====
section
/-! DEFINITION. The host's operations and pseudo-instructions as entries of the schedule (`30_encoding.md` rules R89, R90,
`20_memory.md` rule R57). -/

namespace Sys2Proof.Machine

/-- `WR <off>, <imm32>` (rule R89). -/
def hostWrite (c : Config) (off : Nat) (data : Word) : Event := .bus (.write (c.base + off) .word 0xF data)

/-- `RD <off> -> <name>` (rule R89): the value read is the response of the step. -/
def hostRead (c : Config) (off : Nat) : Event := .bus (.read (c.base + off) .word)

/-- `POLL <off>, <mask>, <value>` (rule R89). -/
def hostPoll (c : Config) (off : Nat) (mask value : Word) : Event := .poll (c.base + off) mask value

/-- The value `LDB` loads (rule R90): a negative literal in two's complement; refused outside -2^(W-1) ≤ value < 2^W. -/
def literal (c : Config) (value : Int) : Option Nat :=
  if -(2 ^ (c.W - 1) : Int) ≤ value ∧ value < 2 ^ c.W then
    some (if 0 ≤ value then value.toNat else tcW c.W value)
  else none

/-- The writes of `LDB` for an admitted value, word 0 first (rule R90). -/
def loadWords (c : Config) (r : OpReg) (v : Nat) : List Event :=
  (List.range c.nw).map fun j => hostWrite c (regOffset r j) (BitVec.ofNat 32 (wordOf v j))

/-- `LDB <reg>, <value>` (rule R90). -/
def ldb (c : Config) (r : OpReg) (value : Int) : Option (List Event) := (literal c value).map (loadWords c r)

/-- The reads of `STB <reg> -> <name>` (rule R90); `valueOfWords` of the words read is the value of `name`. -/
def stb (c : Config) (r : OpReg) : List Event :=
  (List.range c.nw).map fun j => hostRead c (regOffset r j)

/-- `RUN <mnemonic>[ <bitlen>]` (rule R90): it waits for DONE. -/
def runCommand (c : Config) (i : Instr) : List Event :=
  [hostWrite c 0x014 (encode i), hostPoll c 0x018 0x2 0x2]

/-- `CLRDONE` (rule R90). -/
def clrDone (c : Config) : Event := hostWrite c 0x018 0x2

/-- A burst write is its 32-bit beats, each a separate transaction (rule R57). DESIGN CHOICE (assumption log 17): the burst is
an incrementing one, beat k at `addr + 4 * k`; the rule leaves the beats' addresses to the bus. -/
def burstWrite (addr : Nat) : List Word → List Event
  | [] => []
  | w :: ws => .bus (.write addr .word 0xF w) :: burstWrite (addr + 4) ws

/-- A burst read of `n` beats (rule R57); their addresses are as those of `burstWrite` (assumption log 17). -/
def burstRead (addr n : Nat) : List Event :=
  (List.range n).map fun k => .bus (.read (addr + 4 * k) .word)

end Sys2Proof.Machine
end

