-- ==== Sys2Proof/Safety.lean ====
section
/-! DEFINITION. What claims are stated in terms of: the invariant of the block, the ends of a run (`70_reset_and_hazards.md`
rule R245) and the optional fairness of the entropy source (`92_eei_decisions.md` D18). -/

namespace Sys2Proof.Machine

/-- What holds of the block at all times: at reset, and after every step. -/
structure Inv (s : State) : Prop where
  /-- Rule R6: the parameters are ones the spec admits. -/
  params : s.cfg.wf
  /-- Rule R22: "An operand register holds an unsigned integer v with 0 ≤ v < 2^W". -/
  fits : ∀ r : OpReg, s.regs.get r < 2 ^ s.cfg.W
  /-- Rule R37: "At all times `STATUS.BUSY = 1` exactly when `ENG.phase ≠ IDLE`". -/
  busyIff : s.status.busy = true ↔ s.eng.phase ≠ .idle
  /-- Rule R33: "DONE and BUSY are never both 1". -/
  notBoth : ¬ (s.status.busy = true ∧ s.status.done = true)
  /-- Rules R33, R34: ERR is set and cleared with DONE. -/
  errDone : s.status.err = true → s.status.done = true
  /-- Rule R30: ERRCODE "is 0 when ERR = 0", and an error has a code (rule R204). -/
  codeIff : s.status.errcode = .none ↔ s.status.err = false
  /-- Rules R35, R201, R204: PRIME is 0 while a command runs and after an error. -/
  primeQuiet : s.status.prime = true → s.status.busy = false ∧ s.status.err = false
  /-- Rules R37, R65, R201: a running command is the legal word in CMD. -/
  latched : s.eng.phase ≠ .idle →
    (∃ i, decode s.cmd = .legal i) ∧ s.eng.op = opField s.cmd ∧ s.eng.bitlen = bitlenField s.cmd
  /-- Rules R127, R140, R206: past its first step, a running GENPRIME or KEYGEN has an admitted BITLEN. -/
  checkedLen : s.eng.checked = true →
    s.eng.phase ≠ .idle ∧ (s.eng.op = 5 ∨ s.eng.op = 6) ∧ s.eng.bitlen.toNat ≤ s.cfg.W ∧
      (s.eng.op = 6 → s.eng.bitlen ≠ 0)
  /-- Rules R37, R142: in phase KG_Q a KEYGEN runs and ENG.kg_p holds the candidate its first search passed. -/
  holdsP : s.eng.phase = .kgQ →
    s.eng.op = 6 ∧ s.eng.checked = true ∧ s.eng.kgP < 2 ^ (s.eng.bitlen.toNat / 2) ∧
      (s.eng.kgP = 2 ∨ (3 ≤ s.eng.kgP ∧ s.eng.kgP % 2 = 1))

/-- `k` steps of the machine. -/
def runSteps (k : Nat) (s : State) : StepOutcome := Host.Core.run Sys2Proof.core k s

/-- Rule R245, the end of a command: the engine step of a busy block that sets DONE or, for an illegal command, the accepting
CMD write. -/
def EndsCommand (e : Event) (s t : State) : Prop :=
  perform e s = .next t ∧ t.status.done = true ∧ s.status.busy = decide (e = .engine) ∧
    (e = .engine ∨ ∃ w why, e = .bus (.write (s.cfg.base + 0x014) .word 0xF w) ∧ decode w = .illegal why)

/-- Rule R245: the host program has executed its last bus operation and BUSY = 0. Engine steps and resets may still be to come. -/
abbrev Ended (s : State) : Prop := s.schedule.any Event.isHostOperation = false ∧ s.status.busy = false

/-- Rule R245: "a run whose host saw a bus error is faulted". -/
abbrev Faulted (s : State) : Prop := s.faulted = true

/-- FAIR_ENTROPY of D18, for the runs from `s` whose candidates are drawn from 0 to `hi`: on every infinite run that stays
busy, every value of the range is eventually the candidate drawn. An optional assumption: no definition uses it. -/
def FairEntropy (s : State) (hi : Nat) : Prop :=
  ∀ run : Nat → State, run 0 = s → (∀ k, step (run k) = .next (run (k + 1))) →
    (∀ k, (run k).status.busy = true) →
    ∀ v, v ≤ hi → ∃ k, (run k).eng.checked = true ∧ ((run k).entropy.draw 0 hi).1 = v

end Sys2Proof.Machine
end

