-- ==== Sys2Proof/Certificates/Slice0/Obligations.lean ====
section
/-! DEFINITION. The statements for the provers: what the numbered rules of the spec say the block does. -/

namespace Sys2Proof.Claims

open Sys2Proof.Machine

/-- A commit of the register file `rs` (`60_exceptions.md` rule R203), written out: STATUS shows DONE without an error, PRIME
is kept, and the engine is IDLE with its latches kept. Everything not named is unchanged. -/
def commit (rs : Regs) (s : State) : State :=
  { s with regs := rs,
           status := { busy := false, done := true, err := false, prime := s.status.prime, errcode := .none },
           eng := { s.eng with phase := .idle, checked := false } }

/-- An error completion (rule R204), written out: no operand register changes. -/
def failure (code : ErrCode) (s : State) : State :=
  { s with status := { busy := false, done := true, err := true, prime := s.status.prime, errcode := code },
           eng := { s.eng with phase := .idle, checked := false } }

/-- The errors each command raises in its engine steps (rule R205). -/
def errorsOf : Instr → List ErrCode
  | .gcd | .egcd | .mrtest => []
  | .modinv => [.divzero, .noinv]
  | .genprime _ => [.badlen]
  | .keygen _ => [.badlen, .expnotinv]
  | .modpow | .encrypt | .decrypt => [.divzero]
  | .decryptCrt => [.divzero, .noinv]

/-- GENPRIME and KEYGEN, the commands that search (rule R200). -/
def searches : Instr → Bool
  | .genprime _ | .keygen _ => true
  | .gcd | .egcd | .modinv | .mrtest | .modpow | .encrypt | .decrypt | .decryptCrt => false

/-- The `k`-th witness a run of the test on `n` draws from `en`, counting from 0 (`41_primality.md` rule R120). -/
def witnessAt (n : Nat) (en : Entropy) (k : Nat) : Nat := ((Entropy.advance^[k] en).draw 2 (n - 1)).1

/-- A witness that passes one round for an odd `n` (rules R15, R120), in terms of powers: with n - 1 = 2^r * s and s odd,
a^s is 1, or some a^(2^j * s) with j < r is n - 1, modulo n. -/
def StrongLiar (n a : Nat) : Prop :=
  ∃ s r, n - 1 = 2 ^ r * s ∧ s % 2 = 1 ∧ (a ^ s % n = 1 ∨ ∃ j, j < r ∧ a ^ (2 ^ j * s) % n = n - 1)

/-- The operand offsets of rule R51's map, and the slots of rule R52 that W leaves unmapped. -/
def isOperandOffset (off : Nat) : Prop := 0x1000 ≤ off ∧ off < 0x2600

end Sys2Proof.Claims

open Sys2Proof Sys2Proof.Machine Sys2Proof.Claims

/-! ## Encoding -/

/-- Rules R86, R88: decoding an encoded well-formed command gives it back, as a word and as byte lanes. -/
def Obligations.DecodeOfEncodeIsTheCommand : Prop :=
  ∀ i : Instr, WellFormed i →
    decode (encode i) = .legal i ∧ decodeLanes (lanesOf (encode i)) = .legal i

/-- Rules R86, R88: every legal word is the encoding of a well-formed command: no bit of a word is dropped. -/
def Obligations.EncodeOfDecodeIsTheWord : Prop :=
  ∀ (w : Word) (i : Instr), decode w = .legal i → WellFormed i ∧ encode i = w

/-- Rule R86, with the fields read arithmetically from the word's number. -/
def Obligations.DecodeRejectsExactlyTheIllegalWords : Prop :=
  ∀ w : Word,
    (w.toNat % 2 ^ 8 < 0x01 ∨ w.toNat % 2 ^ 8 > 0x0A → ∃ why, decode w = .illegal why) ∧
    (w.toNat / 2 ^ 8 % 2 ^ 8 ≠ 0 → ∃ why, decode w = .illegal why) ∧
    (w.toNat % 2 ^ 8 ≠ 0x05 ∧ w.toNat % 2 ^ 8 ≠ 0x06 ∧ w.toNat / 2 ^ 16 ≠ 0 → ∃ why, decode w = .illegal why) ∧
    (0x01 ≤ w.toNat % 2 ^ 8 ∧ w.toNat % 2 ^ 8 ≤ 0x0A ∧ w.toNat / 2 ^ 8 % 2 ^ 8 = 0 ∧
        (w.toNat % 2 ^ 8 = 0x05 ∨ w.toNat % 2 ^ 8 = 0x06 ∨ w.toNat / 2 ^ 16 = 0) →
      ∃ i, decode w = .legal i ∧ opcode i = w.toNat % 2 ^ 8 ∧ bitlenOf i = w.toNat / 2 ^ 16)

/-- Rule R91's table of worked encodings, word by word. -/
def Obligations.WorkedEncodings : Prop :=
  encode .gcd = 0x00000001 ∧ encode .egcd = 0x00000002 ∧ encode .modinv = 0x00000003 ∧ encode .mrtest = 0x00000004 ∧
  encode (.genprime 16) = 0x00100005 ∧ encode (.keygen 8) = 0x00080006 ∧ encode (.keygen 2048) = 0x08000006 ∧
  encode .modpow = 0x00000007 ∧ encode .encrypt = 0x00000008 ∧ encode .decrypt = 0x00000009 ∧
  encode .decryptCrt = 0x0000000A ∧
  decode 0x00000001 = .legal .gcd ∧ decode 0x00000002 = .legal .egcd ∧ decode 0x00000003 = .legal .modinv ∧
  decode 0x00000004 = .legal .mrtest ∧ decode 0x00100005 = .legal (.genprime 16) ∧
  decode 0x00080006 = .legal (.keygen 8) ∧ decode 0x08000006 = .legal (.keygen 2048) ∧
  decode 0x00000007 = .legal .modpow ∧ decode 0x00000008 = .legal .encrypt ∧ decode 0x00000009 = .legal .decrypt ∧
  decode 0x0000000A = .legal .decryptCrt ∧
  (∃ why, decode 0x00010007 = .illegal why) ∧ (∃ why, decode 0x00000107 = .illegal why) ∧
  (∃ why, decode 0x0000000B = .illegal why) ∧ (∃ why, decode 0x00000000 = .illegal why)

/-! ## The step and the command protocol -/

/-- Rules R61, R200: the step runs the command the engine has latched, when the engine's turn is next (the schedule is empty,
or its next entry is the engine's), and takes the entry from the schedule. The schedule is the model's (log 4). -/
def Obligations.StepRunsTheLatchedCommand : Prop :=
  ∀ (s : State) (i : Instr), s.eng.phase ≠ .idle → decode s.eng.word = .legal i →
    (s.schedule = [] → step s = exec i s) ∧
    (∀ rest, s.schedule = .engine :: rest → step s = exec i { s with schedule := rest })

/-- Rules R65, R201: once its word is accepted, a command is what the next step runs, with the word in CMD, BUSY set and the
operand registers as they were. `withFetchWord` is the model's (log 6). -/
def Obligations.AcceptedWordRunsNext : Prop :=
  ∀ (s : State) (i : Instr), WellFormed i →
    step (s.withFetchWord 32 (encode i).toNat) = exec i (s.withFetchWord 32 (encode i).toNat) ∧
    (s.withFetchWord 32 (encode i).toNat).cmd = encode i ∧
    (s.withFetchWord 32 (encode i).toNat).status.busy = true ∧
    (s.withFetchWord 32 (encode i).toNat).regs = s.regs

/-- Rules R201, R202: what the host's CMD write does to an idle block, for a legal and for an illegal word; nothing else
changes, and for an illegal word `irq` is then CTRL.IRQ_EN. -/
def Obligations.CmdWriteAcceptsTheCommand : Prop :=
  ∀ (s : State) (w : Word), s.status.busy = false →
    (∀ i, decode w = .legal i →
      transact (.write (s.cfg.base + 0x014) .word 0xF w) s =
        { s with cmd := w,
                 status := { busy := true, done := false, err := false, prime := false, errcode := .none },
                 eng := { s.eng with phase := .run, op := opField w, bitlen := bitlenField w, checked := false },
                 response := some .written }) ∧
    (∀ why, decode w = .illegal why →
      transact (.write (s.cfg.base + 0x014) .word 0xF w) s =
        { s with cmd := w,
                 status := { busy := false, done := true, err := true, prime := false, errcode := .illegal },
                 response := some .written } ∧
      (transact (.write (s.cfg.base + 0x014) .word 0xF w) s).irq = s.irqEn)

/-- Rules R203 to R205: every engine step of every command answers a next state, and it is one of three: a search step that
leaves STATUS and every operand register alone and stays in a running phase, a commit, or an error completion with one of
the command's own codes and no operand register changed. -/
def Obligations.EngineStepSearchesCommitsOrFails : Prop :=
  ∀ (i : Instr) (s : State), s.eng.phase ≠ .idle → ∃ t, exec i s = .next t ∧
    ((searches i = true ∧ t.status = s.status ∧ t.regs = s.regs ∧ t.eng.phase ≠ .idle) ∨
     (t.status.busy = false ∧ t.status.done = true ∧ t.status.err = false ∧ t.status.errcode = .none ∧
        t.eng.phase = .idle) ∨
     (t.status.busy = false ∧ t.status.done = true ∧ t.status.err = true ∧ t.status.errcode ∈ errorsOf i ∧
        t.status.prime = s.status.prime ∧ t.regs = s.regs ∧ t.eng.phase = .idle))

/-- Rules R200, R244: whenever one of the eight commands that do not search runs, and the engine's turn is next, that one step
completes it: with no error, or with one of the command's own codes. -/
def Obligations.EightCommandsCompleteInOneStep : Prop :=
  ∀ (s : State) (i : Instr), Inv s → s.status.busy = true → decode s.cmd = .legal i → searches i = false →
    (s.schedule = [] ∨ ∃ rest, s.schedule = .engine :: rest) →
    ∃ t, step s = .next t ∧ t.status.busy = false ∧ t.status.done = true ∧ t.eng.phase = .idle ∧
      (t.status.err = true → t.status.errcode ∈ errorsOf i)

/-- Rule R85's "writes" column and the frame of every command: what an engine step may change. -/
def Obligations.CommandsWriteOnlyTheirRegisters : Prop :=
  ∀ (i : Instr) (s t : State), exec i s = .next t →
    (∀ r, r ∉ writesOf i → t.regs.get r = s.regs.get r) ∧
    (i ≠ .mrtest → t.status.prime = s.status.prime) ∧
    ((∀ L, i ≠ .keygen L) → t.eng.kgP = s.eng.kgP) ∧
    ((∀ L, i ≠ .genprime L) ∧ (∀ L, i ≠ .keygen L) ∧ i ≠ .mrtest → t.entropy = s.entropy) ∧
    t.eng.op = s.eng.op ∧ t.eng.bitlen = s.eng.bitlen ∧
    t.cfg = s.cfg ∧ t.irqEn = s.irqEn ∧ t.rounds = s.rounds ∧ t.cmd = s.cmd ∧
    t.schedule = s.schedule ∧ t.response = s.response ∧ t.faulted = s.faulted

/-- Rules R21, R85: a command's step depends on no operand register outside its "reads" column. Two states that differ only
there complete alike, and write the same values to the same registers. -/
def Obligations.CommandsReadOnlyTheirRegisters : Prop :=
  ∀ (i : Instr) (s : State) (rs : Regs), (∀ r, r ∈ readsOf i → rs.get r = s.regs.get r) →
    ∃ t t', exec i s = .next t ∧ exec i { s with regs := rs } = .next t' ∧
      t'.status = t.status ∧ t'.eng = t.eng ∧ t'.entropy = t.entropy ∧
      ∀ r, t'.regs.get r = t.regs.get r ∨ (t.regs.get r = s.regs.get r ∧ t'.regs.get r = rs.get r)

/-! ## extended_euclidean_gcd -/

/-- Rule R100: the loop's equations, its bound, and so its width. -/
def Obligations.GcdAlgorithm : Prop :=
  (∀ a, gcdF a 0 = a) ∧ gcdF 0 0 = 0 ∧
  (∀ a b, b ≠ 0 → gcdF a b = gcdF b (a % b)) ∧
  (∀ a b, gcdF a b ≤ max a b) ∧
  (∀ W a b, a < 2 ^ W → b < 2 ^ W → gcdF a b < 2 ^ W)

/-- Rules R100, R101: GCD commits the greatest common divisor of A and B to R, and changes no other register. -/
def Obligations.GcdCommitsTheGreatestCommonDivisor : Prop :=
  ∀ s : State, exec .gcd s = .next (commit (s.regs.set .R (Nat.gcd (s.regs.get .A) (s.regs.get .B))) s)

/-- Rule R102: the recursion's equations, the identity, the first component, and the worked pair. -/
def Obligations.EgcdAlgorithm : Prop :=
  (∀ a, egcdF a 0 = (a, 1, 0)) ∧
  (∀ a b g x1 y1, b ≠ 0 → egcdF b (a % b) = (g, x1, y1) →
    egcdF a b = (g, y1, x1 - ((a / b : Nat) : Int) * y1)) ∧
  (∀ a b g x y, egcdF a b = (g, x, y) → (a : Int) * x + (b : Int) * y = (g : Int) ∧ g = gcdF a b) ∧
  egcdF 35 15 = (5, 1, -2)

/-- Rule R103: EGCD commits g to R and the two's-complement encodings of exactly the recursion's x and y to X and Y. -/
def Obligations.EgcdCommitsGAndCoefficients : Prop :=
  ∀ s : State, ∃ x y : Int,
    egcdF (s.regs.get .A) (s.regs.get .B) = (Nat.gcd (s.regs.get .A) (s.regs.get .B), x, y) ∧
    (s.regs.get .A : Int) * x + (s.regs.get .B : Int) * y = (Nat.gcd (s.regs.get .A) (s.regs.get .B) : Int) ∧
    exec .egcd s = .next (commit
      (((s.regs.set .R (Nat.gcd (s.regs.get .A) (s.regs.get .B))).set .X (x % 2 ^ s.cfg.W).toNat).set .Y
        (y % 2 ^ s.cfg.W).toNat) s)

/-- Rule R106: the coefficients' magnitudes, so `tc_W` is exact: a host that reads X and Y with `sext_W` gets a Bézout pair
of A and B. The bound is the spec's own general knowledge, so this is derived, not stated. -/
def Obligations.EgcdCoefficientsReadBackExactly : Prop :=
  (∀ a b : Nat, 0 < Nat.gcd a b →
    2 * Nat.gcd a b * (egcdF a b).2.1.natAbs ≤ max (2 * Nat.gcd a b) b ∧
    2 * Nat.gcd a b * (egcdF a b).2.2.natAbs ≤ max (2 * Nat.gcd a b) a) ∧
  (∀ s t : State, Inv s → exec .egcd s = .next t →
    (s.regs.get .A : Int) * sextW s.cfg.W (t.regs.get .X) + (s.regs.get .B : Int) * sextW s.cfg.W (t.regs.get .Y) =
      (t.regs.get .R : Int))

/-- Rule R104: for m ≥ 1 and gcd 1, the value is x mod m, below m, 0 for m = 1, and for m ≥ 2 the unique inverse. -/
def Obligations.ModinvIsTheUniqueInverse : Prop :=
  ∀ a m : Nat, 1 ≤ m → gcdF a m = 1 →
    (modinvF a m : Int) = (egcdF a m).2.1 % (m : Int) ∧ modinvF a m < m ∧
    (m = 1 → modinvF a m = 0) ∧
    (2 ≤ m → a * modinvF a m % m = 1 ∧ ∀ t, t < m → a * t % m = 1 → t = modinvF a m)

/-- Rules R105, R206: MODINV's two checks in their order, and its commit: the inverse of A modulo M. -/
def Obligations.ModinvCommitsTheInverseOrFails : Prop :=
  ∀ s : State,
    (s.regs.get .M = 0 → exec .modinv s = .next (failure .divzero s)) ∧
    (s.regs.get .M ≠ 0 → Nat.gcd (s.regs.get .A) (s.regs.get .M) ≠ 1 → exec .modinv s = .next (failure .noinv s)) ∧
    (s.regs.get .M ≠ 0 → Nat.gcd (s.regs.get .A) (s.regs.get .M) = 1 →
      ∃ v, v < s.regs.get .M ∧ s.regs.get .A * v % s.regs.get .M = 1 % s.regs.get .M ∧
        exec .modinv s = .next (commit (s.regs.set .R v) s))

/-! ## modular_exponentiation_engine -/

/-- Rule R161: the closed form, and the two special cases the source names. -/
def Obligations.ModpowClosedForm : Prop :=
  (∀ b m, 1 ≤ m → modpowF b 0 m = 1) ∧
  (∀ b e m, 1 ≤ m → 1 ≤ e → modpowF b e m = b ^ e % m) ∧
  (∀ a n, 1 < n → modpowF a 0 n = 1) ∧ (∀ a n, 1 < n → modpowF a 1 n = a % n) ∧
  (∀ b e, 1 ≤ e → modpowF b e 1 = 0)

/-- Rules R161, R162: MODPOW's check and its commit: 1 for a zero exponent, else A^B mod M. -/
def Obligations.ModpowCommitsThePower : Prop :=
  ∀ s : State,
    (s.regs.get .M = 0 → exec .modpow s = .next (failure .divzero s)) ∧
    (s.regs.get .M ≠ 0 → exec .modpow s = .next (commit (s.regs.set .R
      (if s.regs.get .B = 0 then 1 else s.regs.get .A ^ s.regs.get .B % s.regs.get .M)) s))

/-! ## rsa_crt_decrypt_accelerator -/

/-- Rules R161, R180, R181: ENCRYPT and DECRYPT, the check and the commit, with E and D as the exponent. -/
def Obligations.DirectPathsCommitThePower : Prop :=
  ∀ s : State,
    (s.regs.get .N = 0 → exec .encrypt s = .next (failure .divzero s) ∧ exec .decrypt s = .next (failure .divzero s)) ∧
    (s.regs.get .N ≠ 0 →
      exec .encrypt s = .next (commit (s.regs.set .R
        (if s.regs.get .E = 0 then 1 else s.regs.get .A ^ s.regs.get .E % s.regs.get .N)) s) ∧
      exec .decrypt s = .next (commit (s.regs.set .R
        (if s.regs.get .D = 0 then 1 else s.regs.get .A ^ s.regs.get .D % s.regs.get .N)) s))

/-- Rule R182: a unit that is not below the modulus silently wraps, with no error. -/
def Obligations.UnitsWrapSilently : Prop :=
  ∀ (s : State) (i : Instr), (i = .encrypt ∨ i = .decrypt) → s.regs.get .N ≠ 0 →
    ∃ t u, exec i s = .next t ∧
      exec i { s with regs := s.regs.set .A (s.regs.get .A % s.regs.get .N) } = .next u ∧
      t.status.err = false ∧ u.status.err = false ∧ t.regs.get .R = u.regs.get .R

/-- Rules R183, R206: DECRYPT_CRT's two checks, every DIVZERO case before NOINV; and rules R184, R185 otherwise: the value
committed is, modulo N, the x below P * Q with x = C^dp modulo P and x = C^dq modulo Q (a zero power being 1). -/
def Obligations.DecryptCrtRecombinesTheResidues : Prop :=
  ∀ s : State,
    (s.regs.get .P ≤ 1 ∨ s.regs.get .Q ≤ 1 ∨ s.regs.get .N = 0 →
      exec .decryptCrt s = .next (failure .divzero s)) ∧
    (2 ≤ s.regs.get .P → 2 ≤ s.regs.get .Q → s.regs.get .N ≠ 0 → Nat.gcd (s.regs.get .Q) (s.regs.get .P) ≠ 1 →
      exec .decryptCrt s = .next (failure .noinv s)) ∧
    (2 ≤ s.regs.get .P → 2 ≤ s.regs.get .Q → s.regs.get .N ≠ 0 → Nat.gcd (s.regs.get .Q) (s.regs.get .P) = 1 →
      ∃ x, x < s.regs.get .P * s.regs.get .Q ∧
        x % s.regs.get .P = s.regs.get .A ^ (s.regs.get .D % (s.regs.get .P - 1)) % s.regs.get .P ∧
        x % s.regs.get .Q = s.regs.get .A ^ (s.regs.get .D % (s.regs.get .Q - 1)) % s.regs.get .Q ∧
        exec .decryptCrt s = .next (commit (s.regs.set .R (x % s.regs.get .N)) s))

/-- Rule R186: for a valid key with distinct odd prime factors, and a unit below the modulus, the CRT path and the direct path
complete in the same state. The spec marks the property as its own derivation. -/
def Obligations.CrtPathEqualsDirectPath : Prop :=
  ∀ (s : State) (p q : Nat), p.Prime → q.Prime → p ≠ q → p ≠ 2 → q ≠ 2 →
    s.regs.get .P = p → s.regs.get .Q = q → s.regs.get .N = p * q →
    Nat.gcd (s.regs.get .E) ((p - 1) * (q - 1)) = 1 →
    s.regs.get .D = modinvF (s.regs.get .E) ((p - 1) * (q - 1)) →
    s.regs.get .A < p * q →
    ∃ t, exec .decrypt s = .next t ∧ exec .decryptCrt s = .next t

/-- Rules R104, R180, R181 and `95_test_vectors.md` S15: for a valid key with distinct prime factors, DECRYPT of ENCRYPT of a
unit below the modulus gives the unit back. -/
def Obligations.DecryptUndoesEncrypt : Prop :=
  ∀ (s : State) (p q : Nat), p.Prime → q.Prime → p ≠ q →
    s.regs.get .N = p * q → 2 ≤ (p - 1) * (q - 1) →
    Nat.gcd (s.regs.get .E) ((p - 1) * (q - 1)) = 1 →
    s.regs.get .D = modinvF (s.regs.get .E) ((p - 1) * (q - 1)) →
    s.regs.get .A < p * q →
    ∃ t u, exec .encrypt s = .next t ∧
      exec .decrypt { t with regs := t.regs.set .A (t.regs.get .R) } = .next u ∧
      u.regs.get .R = s.regs.get .A

/-! ## miller_rabin_tester -/

/-- Rule R11: a draw is in its range, both bounds included; the entropy source may give every value of the range; and each
call is a separate draw: the source's next value is used up. -/
def Obligations.DrawsRangeOverTheWholeRange : Prop :=
  ∀ (lo hi : Nat), lo ≤ hi →
    (∀ en : Entropy, lo ≤ (en.draw lo hi).1 ∧ (en.draw lo hi).1 ≤ hi ∧
      (en.draw lo hi).2.taken = en.taken + 1 ∧ (en.draw lo hi).2.queue = en.queue.tail) ∧
    (∀ v, lo ≤ v → v ≤ hi → ∀ (rest : List Nat) (n : Nat),
      (Entropy.draw { queue := v :: rest, taken := n } lo hi).1 = v)

/-- Rules R120, R125: MRTEST always completes, from every state; it writes the answer of `mr_f` on A and CFG.ROUNDS, 0 or 1, to
R and to STATUS.PRIME, makes at most ROUNDS draws, and changes nothing else. -/
def Obligations.MrtestCommitsItsAnswer : Prop :=
  ∀ s : State, ∃ (b : Bool) (en : Entropy),
    mrF (s.regs.get .A) s.rounds.toNat s.entropy = (b, en) ∧
    exec .mrtest s = .next
      { s with regs := s.regs.set .R b.toNat,
               status := { busy := false, done := true, err := false, prime := b, errcode := .none },
               eng := { s.eng with phase := .idle, checked := false },
               entropy := en } ∧
    s.entropy.taken ≤ en.taken ∧ en.taken ≤ s.entropy.taken + s.rounds.toNat

/-- Rules R121, R123: the answers that need no draw: 0 for A ≤ 1, 1 for A = 2, 0 for a greater even A, and 1 for every odd
A ≥ 3 when CFG.ROUNDS = 0. -/
def Obligations.MrtestAnswersWithoutDraws : Prop :=
  ∀ s : State, (s.regs.get .A ≤ 2 ∨ s.regs.get .A % 2 = 0 ∨ s.rounds = 0) →
    ∃ t, exec .mrtest s = .next t ∧ t.entropy = s.entropy ∧
      (t.status.prime = true ↔ s.regs.get .A = 2 ∨ (3 ≤ s.regs.get .A ∧ s.regs.get .A % 2 = 1)) ∧
      t.regs.get .R = t.status.prime.toNat

/-- Rules R120, R124: for an odd A ≥ 3 the answer is 1 exactly when every drawn witness is a strong liar (for a prime: passes
a round), and then ROUNDS draws were made. -/
def Obligations.MrtestPassesIffEveryWitnessPasses : Prop :=
  ∀ s : State, 3 ≤ s.regs.get .A → s.regs.get .A % 2 = 1 →
    ∃ t, exec .mrtest s = .next t ∧
      (t.regs.get .R = 1 ↔
        ∀ k, k < s.rounds.toNat → StrongLiar (s.regs.get .A) (witnessAt (s.regs.get .A) s.entropy k)) ∧
      (t.regs.get .R = 1 → t.entropy.taken = s.entropy.taken + s.rounds.toNat)

/-- Rules R122, R124: the witness n - 1 always passes; so the model admits "probably prime" for every odd A ≥ 3 and every number
of rounds, under some draws; and with at least one round it admits "composite" for every odd composite A. -/
def Obligations.MrtestAdmitsBothAnswers : Prop :=
  (∀ n, 3 ≤ n → n % 2 = 1 → StrongLiar n (n - 1)) ∧
  (∀ s : State, 3 ≤ s.regs.get .A → s.regs.get .A % 2 = 1 → ∃ queue, ∃ t,
    exec .mrtest { s with entropy := { queue := queue, taken := s.entropy.taken } } = .next t ∧ t.regs.get .R = 1) ∧
  (∀ s : State, 9 ≤ s.regs.get .A → s.regs.get .A % 2 = 1 → ¬ (s.regs.get .A).Prime → s.rounds ≠ 0 → ∃ queue, ∃ t,
    exec .mrtest { s with entropy := { queue := queue, taken := s.entropy.taken } } = .next t ∧ t.regs.get .R = 0)

/-- Rule R124, "Prime n": MRTEST of a prime answers 1 under every draw and every number of rounds. The spec takes this from
general knowledge, so it is derived. -/
def Obligations.MrtestNeverRejectsAPrime : Prop :=
  ∀ s : State, (s.regs.get .A).Prime →
    ∃ t, exec .mrtest s = .next t ∧ t.regs.get .R = 1 ∧ t.status.prime = true ∧ t.status.err = false

/-- Rule R127: GENPRIME's first engine step, and each later one: a passing candidate is committed to R, and a failing one
changes nothing but the entropy source. That the engine remembers its first step is the model's (log 3). -/
def Obligations.GenprimeChecksThenSearches : Prop :=
  ∀ (L : Nat) (s : State),
    (s.eng.checked = false → s.cfg.W < L → exec (.genprime L) s = .next (failure .badlen s)) ∧
    (s.eng.checked = false → L ≤ s.cfg.W →
      exec (.genprime L) s = .next { s with eng := { s.eng with checked := true } }) ∧
    (s.eng.checked = true → ∀ c en b en', s.entropy.draw 0 (2 ^ L - 1) = (c, en) → mrF c s.rounds.toNat en = (b, en') →
      (b = true → exec (.genprime L) s = .next (commit (s.regs.set .R c) { s with entropy := en' })) ∧
      (b = false → exec (.genprime L) s = .next { s with entropy := en' }))

/-- Rule R129: a completed GENPRIME's result is at least 2 and below 2^L; for 2 there was no witness, and any other result is
odd and had exactly ROUNDS witnesses, all of which passed; the draws are the candidate's and the witnesses'. -/
def Obligations.GenprimeResultIsAProbablePrime : Prop :=
  ∀ (L : Nat) (s t : State), s.eng.checked = true → exec (.genprime L) s = .next t → t.eng.checked = false →
    2 ≤ t.regs.get .R ∧ t.regs.get .R < 2 ^ L ∧
    (t.regs.get .R = 2 → t.entropy.taken = s.entropy.taken + 1) ∧
    (t.regs.get .R ≠ 2 → t.regs.get .R % 2 = 1 ∧ t.entropy.taken = s.entropy.taken + 1 + s.rounds.toNat ∧
      ∀ k, k < s.rounds.toNat → StrongLiar (t.regs.get .R) (witnessAt (t.regs.get .R) s.entropy.advance k))

/-- Rules R128, R146: GENPRIME with BITLEN 0 or 1 and KEYGEN with BITLEN 1, 2 or 3 stay BUSY forever, under every draw: after
any number of steps the command still runs, no operand register has changed, and nothing is done. -/
def Obligations.DegenerateLengthsNeverComplete : Prop :=
  ∀ s : State, Inv s → s.schedule = [] → s.eng.phase ≠ .idle →
    (s.eng.op = 5 ∧ s.eng.bitlen.toNat ≤ 1 ∨ s.eng.op = 6 ∧ 1 ≤ s.eng.bitlen.toNat ∧ s.eng.bitlen.toNat ≤ 3) →
    ∀ k, ∃ t, runSteps k s = .next t ∧ t.status = s.status ∧ t.status.busy = true ∧ t.regs = s.regs

/-- Rules R128, R146: for every BITLEN an endless search exists, of GENPRIME and of both of KEYGEN's searches. When the entropy
source gives the candidate 0 as often as asked, the command is still BUSY, in the same search, after that many attempts. -/
def Obligations.EverySearchMayRunForever : Prop :=
  ∀ (s : State) (k : Nat), s.schedule = [] →
    (s.eng.phase = .run ∧ s.eng.checked = true ∧ (s.eng.op = 5 ∨ s.eng.op = 6) ∨ s.eng.phase = .kgQ ∧ s.eng.op = 6) →
    s.entropy.queue = List.replicate k 0 →
    ∃ t, runSteps k s = .next t ∧ t.status = s.status ∧ t.regs = s.regs ∧ t.eng = s.eng ∧
      t.entropy = { queue := [], taken := s.entropy.taken + k }

/-- Rules R128, R146, R244 with D18: under FAIR_ENTROPY, a GENPRIME with 2 ≤ BITLEN ≤ W completes without an error; and, when
the runs from every state it passes through are fair, a KEYGEN with 4 ≤ BITLEN ≤ W completes, with no error but EXPNOTINV. -/
def Obligations.SearchesCompleteUnderFairEntropy : Prop :=
  (∀ s : State, Inv s → s.schedule = [] → s.eng.phase = .run → s.eng.op = 5 →
    2 ≤ s.eng.bitlen.toNat → s.eng.bitlen.toNat ≤ s.cfg.W →
    FairEntropy s (2 ^ s.eng.bitlen.toNat - 1) →
    ∃ k t, runSteps k s = .next t ∧ t.status.done = true ∧ t.status.err = false ∧ t.status.busy = false) ∧
  (∀ s : State, Inv s → s.schedule = [] → s.eng.phase ≠ .idle → s.eng.op = 6 →
    4 ≤ s.eng.bitlen.toNat → s.eng.bitlen.toNat ≤ s.cfg.W →
    (∀ n u, runSteps n s = .next u → FairEntropy u (2 ^ (s.eng.bitlen.toNat / 2) - 1)) →
    ∃ k t, runSteps k s = .next t ∧ t.status.done = true ∧ t.status.busy = false ∧
      (t.status.err = true → t.status.errcode = .expnotinv))

/-! ## rsa_keygen_engine -/

/-- Rules R140 to R142: KEYGEN's first engine step, its p-attempts and its failing q-attempts; h = L div 2. -/
def Obligations.KeygenChecksThenSearches : Prop :=
  ∀ (L : Nat) (s : State),
    (s.eng.phase = .run → s.eng.checked = false → L = 0 ∨ s.cfg.W < L →
      exec (.keygen L) s = .next (failure .badlen s)) ∧
    (s.eng.phase = .run → s.eng.checked = false → 1 ≤ L → L ≤ s.cfg.W →
      exec (.keygen L) s = .next { s with eng := { s.eng with checked := true } }) ∧
    (∀ c en b en', s.entropy.draw 0 (2 ^ (L / 2) - 1) = (c, en) → mrF c s.rounds.toNat en = (b, en') →
      (s.eng.phase = .run → s.eng.checked = true → b = true →
        exec (.keygen L) s = .next { s with entropy := en', eng := { s.eng with kgP := c, phase := .kgQ } }) ∧
      (s.eng.phase = .run → s.eng.checked = true → b = false → exec (.keygen L) s = .next { s with entropy := en' }) ∧
      (s.eng.phase = .kgQ → b = false → exec (.keygen L) s = .next { s with entropy := en' }))

/-- Rules R140, R143 to R145: the q-attempt that finds q ends the command: EXPNOTINV, with no register written, when 65537 and
phi share a factor; else the five writes, in one commit, and no other register. -/
def Obligations.KeygenCommitsTheKeyOrFails : Prop :=
  ∀ (L : Nat) (s : State) (q : Nat) (en en' : Entropy), s.eng.phase = .kgQ → 1 ≤ s.eng.kgP →
    s.entropy.draw 0 (2 ^ (L / 2) - 1) = (q, en) → mrF q s.rounds.toNat en = (true, en') →
    (Nat.gcd 65537 ((s.eng.kgP - 1) * (q - 1)) ≠ 1 →
      exec (.keygen L) s = .next (failure .expnotinv { s with entropy := en' })) ∧
    (Nat.gcd 65537 ((s.eng.kgP - 1) * (q - 1)) = 1 →
      exec (.keygen L) s = .next (commit
        (((((s.regs.set .E 65537).set .N (s.eng.kgP * q)).set .D
          (modinvF 65537 ((s.eng.kgP - 1) * (q - 1)))).set .P s.eng.kgP).set .Q q) { s with entropy := en' }))

/-- Rule R143: EXPNOTINV is raised exactly when 65537 divides p - 1 or q - 1. The spec derives it. -/
def Obligations.ExpnotinvIffADivisor : Prop :=
  ∀ (L : Nat) (s t : State), Inv s → s.eng.phase = .kgQ → exec (.keygen L) s = .next t → t.eng.phase = .idle →
    ((t.status.err = true ∧ t.status.errcode = .expnotinv) ↔
      (65537 ∣ s.eng.kgP - 1 ∨ 65537 ∣ (s.entropy.draw 0 (2 ^ (L / 2) - 1)).1 - 1))

/-- Rules R129, R147: what R147 says holds after a successful KEYGEN, from every state with the invariant, each of P and Q with
the witnesses it passed: ENG.kg_p when its attempt found it, and the rest when the commit was made. P = Q, and a composite whose
witnesses were all strong liars, are admitted (`90_conflicts.md` C3, C10). The spec derives the rule. -/
def Obligations.KeygenResultHasTheKeyProperties : Prop :=
  (∀ s t : State, Inv s → s.eng.phase = .run → exec (.keygen s.eng.bitlen.toNat) s = .next t → t.eng.phase = .kgQ →
    t.eng.kgP < 2 ^ (s.eng.bitlen.toNat / 2) ∧
    (t.eng.kgP = 2 ∨ 3 ≤ t.eng.kgP ∧ t.eng.kgP % 2 = 1 ∧
      ∀ k, k < s.rounds.toNat → StrongLiar t.eng.kgP (witnessAt t.eng.kgP s.entropy.advance k))) ∧
  (∀ s t : State, Inv s → s.eng.phase = .kgQ → exec (.keygen s.eng.bitlen.toNat) s = .next t →
    t.eng.phase = .idle → t.status.err = false →
    t.regs.get .E = 65537 ∧ t.regs.get .P = s.eng.kgP ∧
    t.regs.get .P < 2 ^ (s.eng.bitlen.toNat / 2) ∧ t.regs.get .Q < 2 ^ (s.eng.bitlen.toNat / 2) ∧
    (t.regs.get .P = 2 ∨ 3 ≤ t.regs.get .P ∧ t.regs.get .P % 2 = 1) ∧
    (t.regs.get .Q = 2 ∨ 3 ≤ t.regs.get .Q ∧ t.regs.get .Q % 2 = 1 ∧
      ∀ k, k < s.rounds.toNat → StrongLiar (t.regs.get .Q) (witnessAt (t.regs.get .Q) s.entropy.advance k)) ∧
    t.regs.get .N = t.regs.get .P * t.regs.get .Q ∧ t.regs.get .N < 2 ^ s.cfg.W ∧
    Nat.gcd 65537 ((t.regs.get .P - 1) * (t.regs.get .Q - 1)) = 1 ∧
    t.regs.get .D < (t.regs.get .P - 1) * (t.regs.get .Q - 1) ∧
    (2 ≤ (t.regs.get .P - 1) * (t.regs.get .Q - 1) →
      t.regs.get .E * t.regs.get .D % ((t.regs.get .P - 1) * (t.regs.get .Q - 1)) = 1) ∧
    ((t.regs.get .P - 1) * (t.regs.get .Q - 1) = 1 → t.regs.get .D = 0))

/-! ## Reset and the whole machine -/

/-- Rule R39: the value of every piece of the block's state after reset, whatever W and BASE are: in the state the model starts
from, and after a reset event in any state, whether or not it cuts off a transaction. -/
def Obligations.ResetValues : Prop :=
  ∀ t : State, ((∃ c, t = State.resetWith c) ∨ ∃ s cut, t = resetStep cut s) →
    (∀ r, t.regs.get r = 0) ∧ t.irqEn = false ∧ t.rounds = 40 ∧ t.cmd = 0x00000000 ∧
    t.status = { busy := false, done := false, err := false, prime := false, errcode := .none } ∧
    memRead 0x000 t = .ok 0x4D525341 ∧ memRead 0x004 t = .ok 0x00010000 ∧ memRead 0x008 t = .ok (BitVec.ofNat 32 t.cfg.W) ∧
    t.irq = false ∧ t.eng.phase = .idle ∧ t.eng.op = 0 ∧ t.eng.bitlen = 0 ∧ t.eng.kgP = 0

/-- Rules R230, R231: a reset event, whatever the engine is doing, abandons the command: STATUS is 0, every operand register is
0, the engine is IDLE and `irq` is 0; and a transaction it cuts off has no effect. -/
def Obligations.ResetAbandonsTheCommand : Prop :=
  ∀ (s : State) (cut : Option Txn) (rest : List Event), s.schedule = .reset cut :: rest → ∃ t, step s = .next t ∧
    t.status = Status.zero ∧ t.status.word = 0 ∧ (∀ r, t.regs.get r = 0) ∧ t.eng = Engine.zero ∧ t.irq = false ∧
    t.irqEn = false ∧ t.rounds = 40 ∧ t.cmd = 0 ∧ t.cfg = s.cfg ∧ t.schedule = rest ∧ t.entropy = s.entropy

/-- The invariant holds at reset, for all admitted parameters. -/
def Obligations.ResetMeetsTheInvariant : Prop :=
  (∀ c : Config, c.wf → Inv (State.resetWith c)) ∧ Inv State.reset

/-- Every step keeps the invariant: an engine step of any command, any bus transaction, a poll, or a reset. -/
def Obligations.StepKeepsTheInvariant : Prop :=
  ∀ s t : State, Inv s → step s = .next t → Inv t

/-- Rule R222: from every state with the invariant the machine takes a step: no fault, no refusal, no deadlock; and while
BUSY = 1 an engine step is always there to take. -/
def Obligations.StepNeverStops : Prop :=
  ∀ s : State, Inv s →
    (∃ t, step s = .next t) ∧
    (s.status.busy = true → ∃ i t, decode s.cmd = .legal i ∧ engineStep s = exec i s ∧ exec i s = .next t)

/-! ## The register window -/

/-- Rule R58: a bus error is raised by exactly the rule's cases, for every access inside the window; and it changes nothing of
the block. -/
def Obligations.BusErrorsAreExactlyTheListedCases : Prop :=
  ∀ (s : State) (off : Nat), off < 0x4000 →
    (∀ size, (∃ why, (transact (.read (s.cfg.base + off) size) s) = busError why s) ∨
        (∃ w, transact (.read (s.cfg.base + off) size) s = { s with response := some (.data w) })) ∧
    (∀ size, (∃ why, (transact (.read (s.cfg.base + off) size) s).response = some (.busError why)) ↔
        size ≠ .word ∨ off % 4 ≠ 0 ∨ (0x01C ≤ off ∧ off < 0x1000) ∨ 0x2600 ≤ off ∨
        (isOperandOffset off ∧ (s.cfg.nw ≤ (off - 0x1000) % 0x200 / 4 ∨ s.status.busy = true))) ∧
    (∀ size strobes data,
      (∃ why, (transact (.write (s.cfg.base + off) size strobes data) s).response = some (.busError why)) ↔
        size ≠ .word ∨ strobes ≠ 0xF ∨ off % 4 ≠ 0 ∨ (0x01C ≤ off ∧ off < 0x1000) ∨ 0x2600 ≤ off ∨
        (isOperandOffset off ∧ (s.cfg.nw ≤ (off - 0x1000) % 0x200 / 4 ∨ s.status.busy = true)) ∨
        off = 0x000 ∨ off = 0x004 ∨ off = 0x008 ∨ ((off = 0x010 ∨ off = 0x014) ∧ s.status.busy = true)) ∧
    (∀ size strobes data why,
      (transact (.write (s.cfg.base + off) size strobes data) s).response = some (.busError why) →
        transact (.write (s.cfg.base + off) size strobes data) s = busError why s)

/-- Rules R50, R59: a transaction outside the window is none of the block's, and a read changes nothing of the block. -/
def Obligations.ReadsAndForeignTransactionsChangeNothing : Prop :=
  ∀ s : State,
    (∀ addr size, addr < s.cfg.base ∨ s.cfg.base + 0x4000 ≤ addr →
      transact (.read addr size) s = { s with response := some .notSelected } ∧
      ∀ strobes data, transact (.write addr size strobes data) s = { s with response := some .notSelected }) ∧
    (∀ addr size, transact (.read addr size) s =
      { s with response := (transact (.read addr size) s).response, faulted := (transact (.read addr size) s).faulted })

/-- Rule R31: the identification registers' values, in every state of a machine whose parameters are admitted, and the bus error
of a write to any of them. -/
def Obligations.IdentificationRegisters : Prop :=
  ∀ s : State, s.cfg.wf →
    memRead 0x000 s = .ok 0x4D525341 ∧ memRead 0x004 s = .ok 0x00010000 ∧
    (∃ w, memRead 0x008 s = .ok w ∧ w.toNat = s.cfg.W) ∧
    (∀ data, memWrite 0x000 data s = .busError .readOnly ∧ memWrite 0x004 data s = .busError .readOnly ∧
      memWrite 0x008 data s = .busError .readOnly)

/-- Rules R27 to R29, R238: reading and writing CTRL, CFG and CMD: CTRL at any time; CFG and CMD read at any time, written
while idle, and otherwise answered with a bus error. -/
def Obligations.ControlRegisters : Prop :=
  ∀ (s : State) (data : Word),
    memWrite 0x00C data s = .ok { s with irqEn := data.getLsbD 0 } ∧
    (∃ w, memRead 0x00C s = .ok w ∧ w.toNat = if s.irqEn then 1 else 0) ∧
    (∃ w, memRead 0x010 s = .ok w ∧ w.toNat = s.rounds.toNat) ∧
    memRead 0x014 s = .ok s.cmd ∧
    (s.status.busy = false → ∃ v : BitVec 8, v.toNat = data.toNat % 2 ^ 8 ∧
      memWrite 0x010 data s = .ok { s with rounds := v }) ∧
    (s.status.busy = false → memWrite 0x014 data s = .ok (acceptCommand data s)) ∧
    (s.status.busy = true → memWrite 0x010 data s = .busError .busy ∧ memWrite 0x014 data s = .busError .busy)

/-- Rule R30: STATUS is read at any time as its fields in their bits, reserved bits 0; a write clears DONE, ERR and ERRCODE if
data[1] = 1 and otherwise changes nothing; at reset it reads 0. -/
def Obligations.StatusReadsAndClears : Prop :=
  (∀ s : State, ∃ w, memRead 0x018 s = .ok w ∧ w.getLsbD 0 = s.status.busy ∧ w.getLsbD 1 = s.status.done ∧
    w.getLsbD 2 = s.status.err ∧ w.getLsbD 3 = s.status.prime ∧
    w.toNat / 2 ^ 4 % 2 ^ 4 = 0 ∧ w.toNat / 2 ^ 8 % 2 ^ 4 = s.status.errcode.code ∧ w.toNat / 2 ^ 12 = 0) ∧
  (∀ (s : State) (data : Word), data.getLsbD 1 = true → memWrite 0x018 data s =
    .ok { s with status := { s.status with done := false, err := false, errcode := .none } }) ∧
  (∀ (s : State) (data : Word), data.getLsbD 1 = false → memWrite 0x018 data s = .ok s) ∧
  (∀ s : State, Inv s → s.status.err = false → s.status.errcode.code = 0) ∧
  (∀ c : Config, memRead 0x018 (State.resetWith c) = .ok 0)

/-- Rules R52, R53: word j of operand register r, read at its offset while idle, is bits [32j+31 : 32j] of the register; the NW
words sum to its value; and the sign `sext_W` reads is bit 31 of word NW - 1. -/
def Obligations.OperandRegistersReadLittleEndian : Prop :=
  ∀ (s : State) (r : OpReg), Inv s → s.status.busy = false →
    ∃ ws : List Word, ws.length = s.cfg.nw ∧
      (∀ j, j < s.cfg.nw → ∃ w, ws[j]? = some w ∧ memRead (0x1000 + 0x200 * r.index + 4 * j) s = .ok w ∧
        w.toNat = s.regs.get r / 2 ^ (32 * j) % 2 ^ 32) ∧
      s.regs.get r = valueOfWords ws ∧
      (sextW s.cfg.W (s.regs.get r) < 0 ↔ ∃ w, ws[s.cfg.nw - 1]? = some w ∧ w.getLsbD 31 = true)

/-- Rules R56, R242: a word written to an idle block's operand register is read back by the very next transaction, every other
offset of the window reads as before, and the register keeps its W bits. -/
def Obligations.OperandWriteChangesOneWord : Prop :=
  ∀ (s : State) (r : OpReg) (j : Nat) (data : Word), s.cfg.wf → s.status.busy = false → j < s.cfg.nw →
    ∃ v, memWrite (0x1000 + 0x200 * r.index + 4 * j) data s = .ok { s with regs := s.regs.set r v } ∧
      memRead (0x1000 + 0x200 * r.index + 4 * j) { s with regs := s.regs.set r v } = .ok data ∧
      (∀ off, off ≠ 0x1000 + 0x200 * r.index + 4 * j →
        memRead off { s with regs := s.regs.set r v } = memRead off s) ∧
      (s.regs.get r < 2 ^ s.cfg.W → v < 2 ^ s.cfg.W)

/-- Rule R90: the bus writes of `LDB r, value`, run on an idle block, leave exactly the register holding the value (in two's
complement for a negative literal), and nothing else of the block changed. -/
def Obligations.LoadOperandProgramLoadsTheValue : Prop :=
  ∀ (s : State) (r : OpReg) (value : Int) (rest : List Event), Inv s → s.status.busy = false →
    -(2 ^ (s.cfg.W - 1) : Int) ≤ value → value < 2 ^ s.cfg.W →
    ∃ evs, ldb s.cfg r value = some evs ∧
      runSteps s.cfg.nw { s with schedule := evs ++ rest } =
        .next { s with regs := s.regs.set r (value % 2 ^ s.cfg.W).toNat, schedule := rest, response := some .written }

/-- Rules R90, R244: `RUN` of a command that does not search, issued to an idle block: four steps later the poll has seen DONE,
the registers and STATUS are those of the command's own step, and the host's program goes on. -/
def Obligations.RunProgramWaitsForTheCommand : Prop :=
  ∀ (s : State) (i : Instr) (rest : List Event), Inv s → s.status.busy = false → searches i = false →
    ∃ u t, exec i (acceptCommand (encode i) s) = .next u ∧
      runSteps 4 { s with schedule := runCommand s.cfg i ++ rest } = .next t ∧
      t.regs = u.regs ∧ t.status = u.status ∧ t.status.done = true ∧ t.schedule = rest ∧
      t.response = some (.data u.status.word) ∧ t.cmd = encode i

/-- Rules R236 to R238: what the busy interlock does. While BUSY = 1 no transaction changes an operand register, CFG, CMD or
the engine; operand accesses and CMD and CFG writes get a bus error; STATUS, CFG and CMD reads are answered. -/
def Obligations.BusyInterlock : Prop :=
  ∀ s : State, s.status.busy = true →
    (∀ t : Txn, (transact t s).regs = s.regs ∧ (transact t s).rounds = s.rounds ∧ (transact t s).cmd = s.cmd ∧
      (transact t s).eng = s.eng ∧ (transact t s).status.busy = true ∧ (transact t s).status.prime = s.status.prime) ∧
    (∀ off, isOperandOffset off → (∃ why, memRead off s = .busError why) ∧
      ∀ data, ∃ why, memWrite off data s = .busError why) ∧
    (∀ data, memWrite 0x010 data s = .busError .busy ∧ memWrite 0x014 data s = .busError .busy) ∧
    (memRead 0x010 s = .ok (s.rounds.setWidth 32) ∧ memRead 0x014 s = .ok s.cmd ∧ memRead 0x018 s = .ok s.status.word)

/-- Rules R207, R209: no bus transaction disturbs a running command: the engine step taken after the transaction gives what it
would have given before, but for CTRL.IRQ_EN and the transaction's own response. -/
def Obligations.TransactionsDoNotDisturbACommand : Prop :=
  ∀ (s : State) (i : Instr) (t : Txn), Inv s → s.status.busy = true → decode s.cmd = .legal i →
    ∃ u, exec i s = .next u ∧
      exec i (transact t s) = .next { u with irqEn := (transact t s).irqEn, response := (transact t s).response,
                                             faulted := (transact t s).faulted }

/-- Rule R33: what clears STATUS.DONE: accepting a legal command, a STATUS write with data[1] = 1, and reset; no other event. -/
def Obligations.DoneIsSticky : Prop :=
  ∀ (s t : State) (e : Event), Inv s → s.status.done = true → perform e s = .next t → t.status.done = false →
    (∃ cut, e = .reset cut) ∨
    (∃ w i, e = .bus (.write (s.cfg.base + 0x014) .word 0xF w) ∧ decode w = .legal i) ∨
    (∃ w, e = .bus (.write (s.cfg.base + 0x018) .word 0xF w) ∧ w.getLsbD 1 = true)

/-- Rule R35: STATUS.PRIME is written only by MRTEST's commit, with the value it writes to R; acceptance of every command and
reset clear it; no other command and no other transaction changes it. -/
def Obligations.PrimeIsWrittenByMrtestOnly : Prop :=
  (∀ s t : State, exec .mrtest s = .next t →
    t.status.prime = (mrF (s.regs.get .A) s.rounds.toNat s.entropy).1 ∧ t.regs.get .R = t.status.prime.toNat) ∧
  (∀ (i : Instr) (s t : State), i ≠ .mrtest → exec i s = .next t → t.status.prime = s.status.prime) ∧
  (∀ (s : State) (w : Word), s.status.busy = false →
    (transact (.write (s.cfg.base + 0x014) .word 0xF w) s).status.prime = false) ∧
  (∀ (s : State) (cut : Option Txn), (resetStep cut s).status.prime = false) ∧
  (∀ (s : State) (t : Txn), (transact t s).status.prime = s.status.prime ∨
    (∃ w, t = .write (s.cfg.base + 0x014) .word 0xF w ∧ (transact t s).status.prime = false))

/-- Rules R36, R208: `irq` is DONE AND IRQ_EN after every completion, and what clears it: a STATUS write with data[1] = 1, the
next accepted legal command, IRQ_EN = 0, and reset. -/
def Obligations.IrqFollowsDoneAndEnable : Prop :=
  (∀ (i : Instr) (s t : State), exec i s = .next t → t.status.done = true → t.irq = s.irqEn) ∧
  (∀ (s : State) (data : Word), ∃ t, memWrite 0x00C data s = .ok t ∧ t.irq = (s.status.done && data.getLsbD 0)) ∧
  (∀ (s : State) (data : Word), data.getLsbD 1 = true → ∃ t, memWrite 0x018 data s = .ok t ∧ t.irq = false) ∧
  (∀ (s : State) (w : Word) (i : Instr), s.status.busy = false → decode w = .legal i →
    ∃ t, memWrite 0x014 w s = .ok t ∧ t.irq = false) ∧
  (∀ (s : State) (cut : Option Txn), (resetStep cut s).irq = false)

/-- Rule R245. A step that turns DONE on is the end of a command. Once a run has ended, every further step leaves it ended and its
fault mark as it is; and if no reset is to come, a step only takes an entry off the schedule. A run becomes faulted exactly when
a transaction or a poll is answered with a bus error. The schedule and the fault mark are the model's (logs 4, 5). -/
def Obligations.CommandsAndRunsEndAsDefined : Prop :=
  (∀ (e : Event) (s t : State), Inv s → perform e s = .next t → s.status.done = false → t.status.done = true →
    EndsCommand e s t) ∧
  (∀ (e : Event) (s t : State), Inv s → EndsCommand e s t → t.status.busy = false ∧ t.eng.phase = .idle ∧
    (s.status.busy = false → t.status.errcode = .illegal)) ∧
  (∀ s t : State, Inv s → Ended s → step s = .next t →
    Ended t ∧ t.faulted = s.faulted ∧ (.reset none ∉ s.schedule → t = { s with schedule := s.schedule.tail })) ∧
  (∀ (e : Event) (s t : State), Inv s → perform e s = .next t → s.faulted = false →
    (t.faulted = true ↔ e.isHostOperation = true ∧ ∃ why, t.response = some (.busError why)))
end

