-- ==== Sys2Proof/Laws/State.lean ====
section
/-! SUPPORT. One lemma per field for each shared update of the state, so that no later proof unfolds a record update. -/

namespace Sys2Proof.Machine

@[simp] theorem complete_cfg (ws : List (OpReg × Nat)) (s : State) : (complete ws s).cfg = s.cfg := rfl
@[simp] theorem complete_regs (ws : List (OpReg × Nat)) (s : State) : (complete ws s).regs = s.regs.apply ws := rfl
@[simp] theorem complete_irqEn (ws : List (OpReg × Nat)) (s : State) : (complete ws s).irqEn = s.irqEn := rfl
@[simp] theorem complete_rounds (ws : List (OpReg × Nat)) (s : State) : (complete ws s).rounds = s.rounds := rfl
@[simp] theorem complete_cmd (ws : List (OpReg × Nat)) (s : State) : (complete ws s).cmd = s.cmd := rfl
@[simp] theorem complete_status (ws : List (OpReg × Nat)) (s : State) : (complete ws s).status = s.status.committed := rfl
@[simp] theorem complete_eng (ws : List (OpReg × Nat)) (s : State) : (complete ws s).eng = s.eng.ended := rfl
@[simp] theorem complete_entropy (ws : List (OpReg × Nat)) (s : State) : (complete ws s).entropy = s.entropy := rfl
@[simp] theorem complete_schedule (ws : List (OpReg × Nat)) (s : State) : (complete ws s).schedule = s.schedule := rfl
@[simp] theorem complete_response (ws : List (OpReg × Nat)) (s : State) : (complete ws s).response = s.response := rfl
@[simp] theorem complete_faulted (ws : List (OpReg × Nat)) (s : State) : (complete ws s).faulted = s.faulted := rfl

@[simp] theorem completePrime_cfg (b : Bool) (s : State) : (completePrime b s).cfg = s.cfg := rfl
@[simp] theorem completePrime_regs (b : Bool) (s : State) : (completePrime b s).regs = s.regs.set .R b.toNat := rfl
@[simp] theorem completePrime_irqEn (b : Bool) (s : State) : (completePrime b s).irqEn = s.irqEn := rfl
@[simp] theorem completePrime_rounds (b : Bool) (s : State) : (completePrime b s).rounds = s.rounds := rfl
@[simp] theorem completePrime_cmd (b : Bool) (s : State) : (completePrime b s).cmd = s.cmd := rfl
@[simp] theorem completePrime_status (b : Bool) (s : State) : (completePrime b s).status = { s.status.committed with prime := b } := rfl
@[simp] theorem completePrime_eng (b : Bool) (s : State) : (completePrime b s).eng = s.eng.ended := rfl
@[simp] theorem completePrime_entropy (b : Bool) (s : State) : (completePrime b s).entropy = s.entropy := rfl
@[simp] theorem completePrime_schedule (b : Bool) (s : State) : (completePrime b s).schedule = s.schedule := rfl
@[simp] theorem completePrime_response (b : Bool) (s : State) : (completePrime b s).response = s.response := rfl
@[simp] theorem completePrime_faulted (b : Bool) (s : State) : (completePrime b s).faulted = s.faulted := rfl

@[simp] theorem raiseErr_cfg (code : ErrCode) (s : State) : (raiseErr code s).cfg = s.cfg := rfl
@[simp] theorem raiseErr_regs (code : ErrCode) (s : State) : (raiseErr code s).regs = s.regs := rfl
@[simp] theorem raiseErr_irqEn (code : ErrCode) (s : State) : (raiseErr code s).irqEn = s.irqEn := rfl
@[simp] theorem raiseErr_rounds (code : ErrCode) (s : State) : (raiseErr code s).rounds = s.rounds := rfl
@[simp] theorem raiseErr_cmd (code : ErrCode) (s : State) : (raiseErr code s).cmd = s.cmd := rfl
@[simp] theorem raiseErr_status (code : ErrCode) (s : State) : (raiseErr code s).status = s.status.failed code := rfl
@[simp] theorem raiseErr_eng (code : ErrCode) (s : State) : (raiseErr code s).eng = s.eng.ended := rfl
@[simp] theorem raiseErr_entropy (code : ErrCode) (s : State) : (raiseErr code s).entropy = s.entropy := rfl
@[simp] theorem raiseErr_schedule (code : ErrCode) (s : State) : (raiseErr code s).schedule = s.schedule := rfl
@[simp] theorem raiseErr_response (code : ErrCode) (s : State) : (raiseErr code s).response = s.response := rfl
@[simp] theorem raiseErr_faulted (code : ErrCode) (s : State) : (raiseErr code s).faulted = s.faulted := rfl

@[simp] theorem acknowledge_cfg (s : State) : (acknowledge s).cfg = s.cfg := rfl
@[simp] theorem acknowledge_regs (s : State) : (acknowledge s).regs = s.regs := rfl
@[simp] theorem acknowledge_irqEn (s : State) : (acknowledge s).irqEn = s.irqEn := rfl
@[simp] theorem acknowledge_rounds (s : State) : (acknowledge s).rounds = s.rounds := rfl
@[simp] theorem acknowledge_cmd (s : State) : (acknowledge s).cmd = s.cmd := rfl
@[simp] theorem acknowledge_status (s : State) : (acknowledge s).status = s.status.acknowledged := rfl
@[simp] theorem acknowledge_eng (s : State) : (acknowledge s).eng = s.eng := rfl
@[simp] theorem acknowledge_entropy (s : State) : (acknowledge s).entropy = s.entropy := rfl
@[simp] theorem acknowledge_schedule (s : State) : (acknowledge s).schedule = s.schedule := rfl
@[simp] theorem acknowledge_response (s : State) : (acknowledge s).response = s.response := rfl
@[simp] theorem acknowledge_faulted (s : State) : (acknowledge s).faulted = s.faulted := rfl

@[simp] theorem busError_cfg (why : BusError) (s : State) : (busError why s).cfg = s.cfg := rfl
@[simp] theorem busError_regs (why : BusError) (s : State) : (busError why s).regs = s.regs := rfl
@[simp] theorem busError_irqEn (why : BusError) (s : State) : (busError why s).irqEn = s.irqEn := rfl
@[simp] theorem busError_rounds (why : BusError) (s : State) : (busError why s).rounds = s.rounds := rfl
@[simp] theorem busError_cmd (why : BusError) (s : State) : (busError why s).cmd = s.cmd := rfl
@[simp] theorem busError_status (why : BusError) (s : State) : (busError why s).status = s.status := rfl
@[simp] theorem busError_eng (why : BusError) (s : State) : (busError why s).eng = s.eng := rfl
@[simp] theorem busError_entropy (why : BusError) (s : State) : (busError why s).entropy = s.entropy := rfl
@[simp] theorem busError_schedule (why : BusError) (s : State) : (busError why s).schedule = s.schedule := rfl
@[simp] theorem busError_response (why : BusError) (s : State) : (busError why s).response = some (.busError why) := rfl
@[simp] theorem busError_faulted (why : BusError) (s : State) : (busError why s).faulted = true := rfl

@[simp] theorem resetEvent_cfg (s : State) : (resetEvent s).cfg = s.cfg := rfl
@[simp] theorem resetEvent_regs (s : State) : (resetEvent s).regs = Regs.zero := rfl
@[simp] theorem resetEvent_irqEn (s : State) : (resetEvent s).irqEn = false := rfl
@[simp] theorem resetEvent_rounds (s : State) : (resetEvent s).rounds = Config.roundsReset := rfl
@[simp] theorem resetEvent_cmd (s : State) : (resetEvent s).cmd = 0 := rfl
@[simp] theorem resetEvent_status (s : State) : (resetEvent s).status = Status.zero := rfl
@[simp] theorem resetEvent_eng (s : State) : (resetEvent s).eng = Engine.zero := rfl
@[simp] theorem resetEvent_entropy (s : State) : (resetEvent s).entropy = s.entropy := rfl
@[simp] theorem resetEvent_schedule (s : State) : (resetEvent s).schedule = s.schedule := rfl
@[simp] theorem resetEvent_response (s : State) : (resetEvent s).response = s.response := rfl
@[simp] theorem resetEvent_faulted (s : State) : (resetEvent s).faulted = s.faulted := rfl

@[simp] theorem ended_phase (e : Engine) : e.ended.phase = .idle := rfl
@[simp] theorem ended_op (e : Engine) : e.ended.op = e.op := rfl
@[simp] theorem ended_bitlen (e : Engine) : e.ended.bitlen = e.bitlen := rfl
@[simp] theorem ended_kgP (e : Engine) : e.ended.kgP = e.kgP := rfl
@[simp] theorem ended_checked (e : Engine) : e.ended.checked = false := rfl

@[simp] theorem draw_fst (en : Entropy) (lo hi : Nat) : (en.draw lo hi).1 = intoRange lo hi en.next := rfl
@[simp] theorem draw_snd (en : Entropy) (lo hi : Nat) : (en.draw lo hi).2 = en.advance := rfl
@[simp] theorem advance_taken (en : Entropy) : en.advance.taken = en.taken + 1 := rfl
@[simp] theorem advance_queue (en : Entropy) : en.advance.queue = en.queue.tail := rfl

/-- Acceptance of an illegal word: it completes with ILLEGAL, and only CMD and STATUS change. -/
theorem acceptCommand_illegal {w : Word} {why : Illegal} (h : decode w = .illegal why) (s : State) :
    acceptCommand w s = { s with cmd := w, status := s.status.refusedWord } := by
  simp only [acceptCommand, h]

/-- Acceptance of a legal word: the engine latches it and is busy. -/
theorem acceptCommand_legal {w : Word} {i : Instr} (h : decode w = .legal i) (s : State) :
    acceptCommand w s =
      { s with cmd := w, status := s.status.started,
               eng := { s.eng with phase := .run, op := opField w, bitlen := bitlenField w, checked := false } } := by
  simp only [acceptCommand, h]

/-- Everything acceptance can do: CMD, STATUS and the engine are all it touches. -/
theorem acceptCommand_cases (w : Word) (s : State) :
    (∃ why, decode w = .illegal why ∧
      acceptCommand w s = { s with cmd := w, status := s.status.refusedWord }) ∨
    (∃ i, decode w = .legal i ∧
      acceptCommand w s =
        { s with cmd := w, status := s.status.started,
                 eng := { s.eng with phase := .run, op := opField w, bitlen := bitlenField w, checked := false } }) := by
  cases h : decode w with
  | legal i => exact .inr ⟨i, rfl, acceptCommand_legal h s⟩
  | illegal why => exact .inl ⟨why, rfl, acceptCommand_illegal h s⟩

@[simp] theorem acceptCommand_cfg (w : Word) (s : State) : (acceptCommand w s).cfg = s.cfg := by
  rcases acceptCommand_cases w s with ⟨_, _, h⟩ | ⟨_, _, h⟩ <;> rw [h]
@[simp] theorem acceptCommand_regs (w : Word) (s : State) : (acceptCommand w s).regs = s.regs := by
  rcases acceptCommand_cases w s with ⟨_, _, h⟩ | ⟨_, _, h⟩ <;> rw [h]
@[simp] theorem acceptCommand_irqEn (w : Word) (s : State) : (acceptCommand w s).irqEn = s.irqEn := by
  rcases acceptCommand_cases w s with ⟨_, _, h⟩ | ⟨_, _, h⟩ <;> rw [h]
@[simp] theorem acceptCommand_rounds (w : Word) (s : State) : (acceptCommand w s).rounds = s.rounds := by
  rcases acceptCommand_cases w s with ⟨_, _, h⟩ | ⟨_, _, h⟩ <;> rw [h]
@[simp] theorem acceptCommand_cmd (w : Word) (s : State) : (acceptCommand w s).cmd = w := by
  rcases acceptCommand_cases w s with ⟨_, _, h⟩ | ⟨_, _, h⟩ <;> rw [h]
@[simp] theorem acceptCommand_entropy (w : Word) (s : State) : (acceptCommand w s).entropy = s.entropy := by
  rcases acceptCommand_cases w s with ⟨_, _, h⟩ | ⟨_, _, h⟩ <;> rw [h]
@[simp] theorem acceptCommand_schedule (w : Word) (s : State) : (acceptCommand w s).schedule = s.schedule := by
  rcases acceptCommand_cases w s with ⟨_, _, h⟩ | ⟨_, _, h⟩ <;> rw [h]
@[simp] theorem acceptCommand_response (w : Word) (s : State) : (acceptCommand w s).response = s.response := by
  rcases acceptCommand_cases w s with ⟨_, _, h⟩ | ⟨_, _, h⟩ <;> rw [h]
@[simp] theorem acceptCommand_faulted (w : Word) (s : State) : (acceptCommand w s).faulted = s.faulted := by
  rcases acceptCommand_cases w s with ⟨_, _, h⟩ | ⟨_, _, h⟩ <;> rw [h]

end Sys2Proof.Machine
end

