-- ==== Sys2Proof/Laws/Encoding.lean ====
section
/-! SUPPORT. The fields of a command word, and the command the engine's latches stand for. -/

namespace Sys2Proof

theorem opField_toNat (w : Word) : (opField w).toNat = w.toNat % 2 ^ 8 := by
  simp [opField, BitVec.extractLsb'_toNat]

theorem rsvdField_toNat (w : Word) : (rsvdField w).toNat = w.toNat / 2 ^ 8 % 2 ^ 8 := by
  simp [rsvdField, BitVec.extractLsb'_toNat, Nat.shiftRight_eq_div_pow]

theorem bitlenField_toNat (w : Word) : (bitlenField w).toNat = w.toNat / 2 ^ 16 := by
  have := w.isLt
  simp [bitlenField, BitVec.extractLsb'_toNat, Nat.shiftRight_eq_div_pow]
  omega

/-- A word is its three fields. -/
theorem word_fields (w : Word) :
    w.toNat = (opField w).toNat + (rsvdField w).toNat * 2 ^ 8 + (bitlenField w).toNat * 2 ^ 16 := by
  rw [opField_toNat, rsvdField_toNat, bitlenField_toNat]
  omega

theorem instrOf_some {op : BitVec 8} {L : BitVec 16} {i : Instr} (h : instrOf op L = some i) :
    opcode i = op.toNat ∧ (bitlenOf i = L.toNat ∨ (bitlenOf i = 0 ∧ takesBitlen op = false)) ∧ i.wellFormed = true := by
  have hL := L.isLt
  unfold instrOf at h
  split at h <;> simp only [Option.some.injEq, reduceCtorEq] at h <;> subst h <;>
    simp_all [opcode, bitlenOf, Instr.wellFormed, takesBitlen, ← BitVec.toNat_inj] <;> omega

/-- Everything `decode` can answer LEGAL to: an assigned opcode, RSVD = 0, and a BITLEN only where one is taken. -/
theorem decode_legal {w : Word} {i : Instr} (h : decode w = .legal i) :
    opcode i = (opField w).toNat ∧ bitlenOf i = (bitlenField w).toNat ∧ rsvdField w = 0 ∧ i.wellFormed = true := by
  unfold decode at h
  split at h
  · cases h
  · split at h
    · cases h
    · split at h
      · cases h
      · split at h
        · cases h
        · rename_i hr hb
          split at h
          · rename_i j hj
            cases h
            obtain ⟨h1, h2, h3⟩ := instrOf_some hj
            refine ⟨h1, ?_, by simpa using hr, h3⟩
            rcases h2 with h2 | ⟨h2, h2'⟩
            · exact h2
            · have : bitlenField w = 0 := by
                by_contra hne
                exact hb ⟨h2', hne⟩
              simp [h2, this]
          · cases h

end Sys2Proof

namespace Sys2Proof.Machine

/-- The word the latches of an accepted command stand for is the command word (rules R37, R201). -/
theorem engineWord_eq {w : Word} {i : Instr} (h : decode w = .legal i) (e : Engine)
    (hop : e.op = opField w) (hbl : e.bitlen = bitlenField w) : e.word = w := by
  have hr := (decode_legal h).2.2.1
  have hw := word_fields w
  apply BitVec.eq_of_toNat_eq
  rw [Engine.word, BitVec.toNat_ofNat, hop, hbl]
  have := w.isLt
  rw [hr, show (0 : BitVec 8).toNat = 0 from rfl, Nat.zero_mul, Nat.add_zero] at hw
  rw [← hw]
  exact Nat.mod_eq_of_lt this

end Sys2Proof.Machine
end

