-- ==== Sys2Proof/Laws/Operands.lean ====
section
/-! SUPPORT. The register file and its word view: read after write, and the words of a value. -/

namespace Sys2Proof.Machine

/-- Read after write of the operand file: no two registers alias (rule R21). -/
theorem get_set (rs : Regs) (r r' : OpReg) (v : Nat) :
    (rs.set r v).get r' = if r' = r then v else rs.get r' := by
  cases r <;> cases r' <;> rfl

@[simp] theorem get_set_same (rs : Regs) (r : OpReg) (v : Nat) : (rs.set r v).get r = v := by
  simp [get_set]

theorem get_set_other {r r' : OpReg} (h : r' ≠ r) (rs : Regs) (v : Nat) : (rs.set r v).get r' = rs.get r' := by
  simp [get_set, h]

@[simp] theorem apply_nil (rs : Regs) : rs.apply [] = rs := rfl
@[simp] theorem apply_cons (rs : Regs) (w : OpReg × Nat) (ws : List (OpReg × Nat)) :
    rs.apply (w :: ws) = (rs.set w.1 w.2).apply ws := rfl

theorem set_set (rs : Regs) (r : OpReg) (v v' : Nat) : (rs.set r v).set r v' = rs.set r v' := by cases r <;> rfl

@[simp] theorem set_get_self (rs : Regs) (r : OpReg) : rs.set r (rs.get r) = rs := by cases r <;> rfl

/-- Held writes touch the registers they name and no other. -/
theorem get_apply_other (ws : List (OpReg × Nat)) (rs : Regs) (r : OpReg) (h : ∀ w ∈ ws, r ≠ w.1) :
    (rs.apply ws).get r = rs.get r := by
  induction ws generalizing rs with
  | nil => rfl
  | cons w ws ih =>
    rw [apply_cons, ih _ fun x hx => h x (by simp [hx]), get_set_other (h w (by simp))]

/-- Two register files that agree on every register are equal. -/
theorem regs_ext {rs rs' : Regs} (h : ∀ r, rs.get r = rs'.get r) : rs = rs' := by
  cases rs; cases rs'
  have hA := h .A; have hB := h .B; have hM := h .M; have hP := h .P; have hQ := h .Q; have hN := h .N
  have hD := h .D; have hE := h .E; have hR := h .R; have hX := h .X; have hY := h .Y
  simp only [Regs.get] at hA hB hM hP hQ hN hD hE hR hX hY
  simp_all

@[simp] theorem regAt_index (r : OpReg) : regAt r.index = r := by cases r <;> rfl

theorem index_le (r : OpReg) : r.index ≤ 10 := by cases r <;> decide

theorem index_regAt {k : Nat} (h : k ≤ 10) : (regAt k).index = k := by
  interval_cases k <;> rfl

theorem wordOf_lt (v j : Nat) : wordOf v j < 2 ^ 32 := Nat.mod_lt _ (by decide)

/-- A value splits at word `j` into what lies above, the word, and what lies below. -/
theorem split_at_word (v j : Nat) :
    v = (v / 2 ^ (32 * (j + 1))) * 2 ^ (32 * (j + 1)) + wordOf v j * 2 ^ (32 * j) + v % 2 ^ (32 * j) := by
  have hpow : 2 ^ (32 * (j + 1)) = 2 ^ (32 * j) * 2 ^ 32 := by rw [← pow_add]; congr 1
  have h1 : v = v / 2 ^ (32 * j) * 2 ^ (32 * j) + v % 2 ^ (32 * j) := (Nat.div_add_mod' v _).symm
  have h2 := (Nat.div_add_mod' (v / 2 ^ (32 * j)) (2 ^ 32)).symm
  rw [Nat.div_div_eq_div_mul] at h2
  conv_lhs => rw [h1, h2]
  rw [hpow, wordOf]
  ring

/-- Replacing word `j`: the parts above and below stay (rule R56: "only word j changes"). -/
theorem putWord_eq (v j : Nat) (data : Word) :
    putWord v j data =
      (v / 2 ^ (32 * (j + 1))) * 2 ^ (32 * (j + 1)) + data.toNat * 2 ^ (32 * j) + v % 2 ^ (32 * j) := by
  have h := split_at_word v j
  rw [putWord]
  omega

theorem two_pow_word_succ (j : Nat) : 2 ^ (32 * (j + 1)) = 2 ^ (32 * j) * 2 ^ 32 := by
  rw [← pow_add]; congr 1

theorem putWord_div_high (v j : Nat) (data : Word) :
    putWord v j data / 2 ^ (32 * (j + 1)) = v / 2 ^ (32 * (j + 1)) := by
  have hd : data.toNat < 2 ^ 32 := data.isLt
  have hr : v % 2 ^ (32 * j) < 2 ^ (32 * j) := Nat.mod_lt _ (by positivity)
  rw [putWord_eq, Nat.add_assoc, Nat.add_comm, Nat.add_mul_div_right _ _ (by positivity), Nat.div_eq_of_lt, Nat.zero_add]
  calc data.toNat * 2 ^ (32 * j) + v % 2 ^ (32 * j) < (data.toNat + 1) * 2 ^ (32 * j) := by
        rw [Nat.add_mul, Nat.one_mul]; omega
    _ ≤ 2 ^ 32 * 2 ^ (32 * j) := Nat.mul_le_mul_right _ hd
    _ = 2 ^ (32 * (j + 1)) := by rw [two_pow_word_succ, Nat.mul_comm]

theorem putWord_mod_low (v j : Nat) (data : Word) : putWord v j data % 2 ^ (32 * j) = v % 2 ^ (32 * j) := by
  rw [putWord_eq, two_pow_word_succ]
  have : v / (2 ^ (32 * j) * 2 ^ 32) * (2 ^ (32 * j) * 2 ^ 32) + data.toNat * 2 ^ (32 * j) + v % 2 ^ (32 * j)
      = v % 2 ^ (32 * j) + 2 ^ (32 * j) * (v / (2 ^ (32 * j) * 2 ^ 32) * 2 ^ 32 + data.toNat) := by ring
  rw [this, Nat.add_mul_mod_self_left, Nat.mod_mod]

/-- The word written is the word read. -/
theorem wordOf_putWord_same (v j : Nat) (data : Word) : wordOf (putWord v j data) j = data.toNat := by
  have hd : data.toNat < 2 ^ 32 := data.isLt
  have hr : v % 2 ^ (32 * j) < 2 ^ (32 * j) := Nat.mod_lt _ (by positivity)
  rw [wordOf, putWord_eq, two_pow_word_succ]
  have : v / (2 ^ (32 * j) * 2 ^ 32) * (2 ^ (32 * j) * 2 ^ 32) + data.toNat * 2 ^ (32 * j) + v % 2 ^ (32 * j)
      = v % 2 ^ (32 * j) + (v / (2 ^ (32 * j) * 2 ^ 32) * 2 ^ 32 + data.toNat) * 2 ^ (32 * j) := by ring
  rw [this, Nat.add_mul_div_right _ _ (by positivity), Nat.div_eq_of_lt hr, Nat.zero_add, Nat.add_comm,
    Nat.add_mul_mod_self_right, Nat.mod_eq_of_lt hd]

/-- Every other word of the register reads as before. -/
theorem wordOf_putWord_other {j j' : Nat} (hne : j' ≠ j) (v : Nat) (data : Word) :
    wordOf (putWord v j data) j' = wordOf v j' := by
  rcases Nat.lt_or_gt_of_ne hne with hlt | hgt
  · -- below: both values agree modulo 2^(32*j), which holds word j' whole
    have key : ∀ u : Nat, wordOf u j' = wordOf (u % 2 ^ (32 * j)) j' := by
      intro u
      have hp : 2 ^ (32 * j) = 2 ^ (32 * j') * 2 ^ (32 * (j - j')) := by rw [← pow_add]; congr 1; omega
      have hq : 2 ^ (32 * (j - j')) = 2 ^ 32 * 2 ^ (32 * (j - j' - 1)) := by rw [← pow_add]; congr 1; omega
      rw [wordOf, wordOf, hp, Nat.mod_mul_right_div_self, hq, Nat.mod_mul_right_mod]
    rw [key, putWord_mod_low, ← key]
  · -- above: both values agree after division by 2^(32*(j+1))
    have key : ∀ u : Nat, wordOf u j' = wordOf (u / 2 ^ (32 * (j + 1))) (j' - (j + 1)) := by
      intro u
      rw [wordOf, wordOf, Nat.div_div_eq_div_mul, ← pow_add]
      congr 3
      omega
    rw [key, putWord_div_high, ← key]

/-- A word store keeps the register within W bits (rule R22). -/
theorem putWord_lt {v j nw : Nat} (hv : v < 2 ^ (32 * nw)) (hj : j < nw) (data : Word) :
    putWord v j data < 2 ^ (32 * nw) := by
  have hp : 2 ^ (32 * nw) = 2 ^ (32 * (j + 1)) * 2 ^ (32 * (nw - (j + 1))) := by rw [← pow_add]; congr 1; omega
  rw [hp] at hv ⊢
  have h1 := Nat.div_lt_of_lt_mul hv
  exact (Nat.div_lt_iff_lt_mul (by positivity)).mp (by rw [putWord_div_high]; exact h1) |>.trans_eq (Nat.mul_comm _ _)

/-- The words of a value below 2^(32 * n) sum to it (rule R53). -/
theorem valueOfWords_words (n v : Nat) (hv : v < 2 ^ (32 * n)) :
    valueOfWords ((List.range n).map fun j => BitVec.ofNat 32 (wordOf v j)) = v := by
  induction n generalizing v with
  | zero => simp_all [valueOfWords]
  | succ n ih =>
    have hshift : ∀ j, wordOf v (j + 1) = wordOf (v / 2 ^ 32) j := by
      intro j
      rw [wordOf, wordOf, Nat.div_div_eq_div_mul, ← pow_add]
      congr 3
      omega
    have hv' : v / 2 ^ 32 < 2 ^ (32 * n) := by
      apply Nat.div_lt_of_lt_mul
      rw [← pow_add]
      exact hv.trans_eq (by congr 1; omega)
    have htail := ih (v / 2 ^ 32) hv'
    rw [List.range_succ_eq_map, List.map_cons, List.map_map, valueOfWords]
    have : (fun j => BitVec.ofNat 32 (wordOf v j)) ∘ Nat.succ = fun j => BitVec.ofNat 32 (wordOf (v / 2 ^ 32) j) := by
      funext j; simp [hshift]
    rw [this, htail, BitVec.toNat_ofNat, Nat.mod_eq_of_lt (wordOf_lt v 0), wordOf]
    simp only [Nat.mul_zero, pow_zero, Nat.div_one]
    exact Nat.mod_add_div v (2 ^ 32)

end Sys2Proof.Machine
end

