-- ==== Sys2Proof/Laws/Bus.lean ====
section
/-! SUPPORT. The register window: where the map sends an offset, and everything a transaction can do. -/

namespace Sys2Proof.Machine

/-- The map sends the offset of word `j` of register `r` to that word (rule R52). -/
theorem placeAt_operand (c : Config) (r : OpReg) {j : Nat} (hj : j < c.nw) (h128 : c.nw ≤ 128) :
    placeAt c (0x1000 + 0x200 * r.index + 4 * j) = .operand r j := by
  have hk := index_le r
  have hdiv : (0x1000 + 0x200 * r.index + 4 * j - 0x1000) / 0x200 = r.index := by omega
  have hmod : (0x1000 + 0x200 * r.index + 4 * j - 0x1000) % 0x200 / 4 = j := by omega
  unfold placeAt
  rw [hdiv, hmod, regAt_index]
  repeat rw [if_neg (by omega)]
  rw [if_pos (by omega), if_pos hj]

/-- Only the operand window is sent to an operand word. -/
theorem placeAt_eq_operand {c : Config} {off : Nat} {r : OpReg} {j : Nat} (h : placeAt c off = .operand r j) :
    0x1000 ≤ off ∧ off < 0x2600 ∧ j < c.nw ∧ j = (off - 0x1000) % 0x200 / 4 ∧ r = regAt ((off - 0x1000) / 0x200) := by
  unfold placeAt at h
  iterate 7 (split at h; · cases h)
  split at h
  · split at h
    · cases h; rename_i h1 h2; exact ⟨h1.1, h1.2, h2, rfl, rfl⟩
    · cases h
  · cases h

/-- Two aligned offsets of the same operand word are the same offset. -/
theorem placeAt_operand_inj {c : Config} {off : Nat} {r : OpReg} {j : Nat} (ha : off % 4 = 0)
    (h : placeAt c off = .operand r j) : off = 0x1000 + 0x200 * r.index + 4 * j := by
  obtain ⟨h1, h2, _, h4, h5⟩ := placeAt_eq_operand h
  rw [h5, index_regAt (by omega), h4]
  omega

/-- An offset inside the window is decoded, wherever BASE is (rule R50). -/
theorem offsetOf_base (c : Config) {off : Nat} (h : off < 0x4000) : offsetOf c (c.base + off) = some off := by
  unfold offsetOf
  rw [if_pos (by omega)]
  congr 1
  omega

/-- Everything a word write can do: store CTRL, CFG or an operand word, accept a command, acknowledge, or nothing. -/
theorem memWrite_cases (off : Nat) (data : Word) (s : State) :
    (∃ why, memWrite off data s = .busError why) ∨
    (memWrite off data s = .ok { s with irqEn := data.getLsbD 0 }) ∨
    (s.status.busy = false ∧ memWrite off data s = .ok { s with rounds := data.setWidth 8 }) ∨
    (s.status.busy = false ∧ off = 0x014 ∧ memWrite off data s = .ok (acceptCommand data s)) ∨
    (off = 0x018 ∧ data.getLsbD 1 = true ∧ memWrite off data s = .ok (acknowledge s)) ∨
    (off = 0x018 ∧ data.getLsbD 1 = false ∧ memWrite off data s = .ok s) ∨
    (∃ r j, s.status.busy = false ∧ j < s.cfg.nw ∧
      memWrite off data s = .ok { s with regs := s.regs.set r (putWord (s.regs.get r) j data) }) := by
  unfold memWrite
  by_cases ha : off % 4 ≠ 0
  · rw [if_pos ha]; exact .inl ⟨_, rfl⟩
  · rw [if_neg ha]
    cases hp : placeAt s.cfg off with
    | id => exact .inl ⟨_, rfl⟩
    | version => exact .inl ⟨_, rfl⟩
    | param => exact .inl ⟨_, rfl⟩
    | ctrl => exact .inr (.inl rfl)
    | cfg =>
      cases hb : s.status.busy
      · exact .inr (.inr (.inl ⟨rfl, by simp⟩))
      · exact .inl ⟨_, by simp; rfl⟩
    | cmd =>
      cases hb : s.status.busy
      · refine .inr (.inr (.inr (.inl ⟨rfl, ?_, by simp⟩)))
        unfold placeAt at hp
        iterate 5 (split at hp; · cases hp)
        split at hp
        · assumption
        · split at hp
          · cases hp
          · split at hp
            · split at hp <;> cases hp
            · cases hp
      · exact .inl ⟨_, by simp; rfl⟩
    | status =>
      have h18 : off = 0x018 := by
        unfold placeAt at hp
        iterate 6 (split at hp; · cases hp)
        split at hp
        · assumption
        · split at hp
          · split at hp <;> cases hp
          · cases hp
      cases hd : data.getLsbD 1
      · exact .inr (.inr (.inr (.inr (.inr (.inl ⟨h18, rfl, by simp⟩)))))
      · exact .inr (.inr (.inr (.inr (.inl ⟨h18, rfl, by simp⟩))))
    | operand r j =>
      cases hb : s.status.busy
      · exact .inr (.inr (.inr (.inr (.inr (.inr ⟨r, j, rfl, (placeAt_eq_operand hp).2.2.1, by simp⟩)))))
      · exact .inl ⟨_, by simp; rfl⟩
    | noSlot => exact .inl ⟨_, rfl⟩
    | unmapped => exact .inl ⟨_, rfl⟩

/-- Everything a read can do: answer, with a word, an error or nothing; the block is as before (rule R59). -/
theorem transact_read_shape (addr : Nat) (size : AccessSize) (s : State) :
    ∃ resp f, transact (.read addr size) s = { s with response := some resp, faulted := f } ∧
      (f = s.faulted ∨ f = true) := by
  simp only [transact]
  split
  · exact ⟨_, _, rfl, .inl rfl⟩
  · unfold answerRead
    split
    · exact ⟨_, _, rfl, .inr rfl⟩
    · split
      · exact ⟨_, _, rfl, .inl rfl⟩
      · exact ⟨_, _, rfl, .inr rfl⟩

/-- Everything a transaction can do: answer only, or one of the word writes of `memWrite_cases`. -/
theorem transact_shape (t : Txn) (s : State) :
    (∃ resp f, transact t s = { s with response := some resp, faulted := f }) ∨
    (∃ off data u, t = .write (s.cfg.base + off) .word 0xF data ∧ memWrite off data s = .ok u ∧
      transact t s = { u with response := some .written }) := by
  cases t with
  | read addr size =>
    obtain ⟨resp, f, h, _⟩ := transact_read_shape addr size s
    exact .inl ⟨resp, f, h⟩
  | write addr size strobes data =>
    simp only [transact]
    cases ho : offsetOf s.cfg addr with
    | none => exact .inl ⟨_, _, rfl⟩
    | some off =>
      simp only [answerWrite]
      split
      · exact .inl ⟨_, _, rfl⟩
      · rename_i hsz
        push Not at hsz
        obtain ⟨rfl, rfl⟩ := hsz
        cases hm : memWrite off data s with
        | busError why => exact .inl ⟨_, _, rfl⟩
        | ok u =>
          refine .inr ⟨off, data, u, ?_, hm, rfl⟩
          unfold offsetOf at ho
          split at ho
          · rename_i hin
            cases ho
            congr 1
            omega
          · cases ho

/-- Where the map sends an aligned offset: one case per row of rules R51 and R52. -/
theorem placeAt_cases (c : Config) {off : Nat} (ha : off % 4 = 0) :
    (off = 0x000 ∧ placeAt c off = .id) ∨ (off = 0x004 ∧ placeAt c off = .version) ∨
    (off = 0x008 ∧ placeAt c off = .param) ∨ (off = 0x00C ∧ placeAt c off = .ctrl) ∨
    (off = 0x010 ∧ placeAt c off = .cfg) ∨ (off = 0x014 ∧ placeAt c off = .cmd) ∨
    (off = 0x018 ∧ placeAt c off = .status) ∨
    (0x1000 ≤ off ∧ off < 0x2600 ∧ (off - 0x1000) % 0x200 / 4 < c.nw ∧
      ∃ r, placeAt c off = .operand r ((off - 0x1000) % 0x200 / 4)) ∨
    (0x1000 ≤ off ∧ off < 0x2600 ∧ c.nw ≤ (off - 0x1000) % 0x200 / 4 ∧ placeAt c off = .noSlot) ∨
    ((0x01C ≤ off ∧ off < 0x1000 ∨ 0x2600 ≤ off) ∧ placeAt c off = .unmapped) := by
  by_cases h0 : off = 0x000; · left; subst h0; exact ⟨rfl, rfl⟩
  right; by_cases h1 : off = 0x004; · left; subst h1; exact ⟨rfl, rfl⟩
  right; by_cases h2 : off = 0x008; · left; subst h2; exact ⟨rfl, rfl⟩
  right; by_cases h3 : off = 0x00C; · left; subst h3; exact ⟨rfl, rfl⟩
  right; by_cases h4 : off = 0x010; · left; subst h4; exact ⟨rfl, rfl⟩
  right; by_cases h5 : off = 0x014; · left; subst h5; exact ⟨rfl, rfl⟩
  right; by_cases h6 : off = 0x018; · left; subst h6; exact ⟨rfl, rfl⟩
  right
  unfold placeAt
  rw [if_neg h0, if_neg h1, if_neg h2, if_neg h3, if_neg h4, if_neg h5, if_neg h6]
  split
  · split
    · exact .inl ⟨by omega, by omega, by omega, _, rfl⟩
    · exact .inr (.inl ⟨by omega, by omega, by omega, rfl⟩)
  · exact .inr (.inr ⟨by omega, rfl⟩)

/-- A read sees of the operand registers only the word at its own offset. -/
theorem memRead_regs {off : Nat} {s : State} {rs : Regs}
    (h : ∀ r j, off % 4 = 0 → placeAt s.cfg off = .operand r j → s.status.busy = false →
      wordOf (rs.get r) j = wordOf (s.regs.get r) j) :
    memRead off { s with regs := rs } = memRead off s := by
  unfold memRead
  split
  · rfl
  · cases hp : placeAt s.cfg off <;> simp only []
    rename_i r j
    cases hb : s.status.busy
    · simp; rw [h r j (by omega) hp hb]
    · simp

/-- Everything a transaction can do to a busy block: answer, store CTRL, or acknowledge. -/
theorem transact_busy {s : State} (hb : s.status.busy = true) (t : Txn) :
    ∃ q r f, ∃ ack : Bool, transact t s =
      { s with irqEn := q, response := r, faulted := f,
               status := if ack then s.status.acknowledged else s.status } := by
  rcases transact_shape t s with ⟨resp, f, h⟩ | ⟨off, data, u, _, hm, h⟩
  · exact ⟨s.irqEn, _, _, false, h⟩
  · have hu : ∀ v, memWrite off data s = .ok v → u = v := by
      intro v hv; rw [hv] at hm; cases hm; rfl
    rcases memWrite_cases off data s with
      ⟨why, e⟩ | e | ⟨hb', e⟩ | ⟨hb', _, e⟩ | ⟨_, _, e⟩ | ⟨_, _, e⟩ | ⟨r, j, hb', hj, e⟩
    · rw [e] at hm; cases hm
    · rw [h, hu _ e]; exact ⟨_, _, _, false, rfl⟩
    · simp [hb] at hb'
    · simp [hb] at hb'
    · rw [h, hu _ e]; exact ⟨s.irqEn, _, s.faulted, true, rfl⟩
    · rw [h, hu _ e]; exact ⟨s.irqEn, _, s.faulted, false, rfl⟩
    · simp [hb] at hb'

end Sys2Proof.Machine
end

