-- ==== Sys2Proof/Laws/Euclid.lean ====
section
/-! SUPPORT. The functions of the extended_euclidean_gcd unit: their fuel suffices, so they are the loops and the recursion of
rules R100, R102 and R104. -/

namespace Sys2Proof.Machine

/-- Fuel of at least `b` is enough, whatever it is. -/
theorem gcdLoop_fuel (f a b : Nat) (h : b ≤ f) : gcdLoop f a b = gcdLoop b a b := by
  induction f using Nat.strong_induction_on generalizing a b with
  | _ f ih =>
    match f, b, h with
    | 0, 0, _ => rfl
    | f + 1, 0, _ => simp [gcdLoop]
    | f + 1, b + 1, h =>
      have hlt : a % (b + 1) < b + 1 := Nat.mod_lt _ (by omega)
      simp only [gcdLoop, Nat.add_eq_zero_iff, one_ne_zero, and_false, if_false]
      rw [ih f (by omega) _ _ (by omega)]
      by_cases hb : b = f
      · subst hb; rw [ih b (by omega) _ _ (by omega)]
      · rw [ih b (by omega) _ _ (by omega)]

theorem gcdF_zero (a : Nat) : gcdF a 0 = a := rfl

/-- One turn of rule R100's loop. -/
theorem gcdF_step (a b : Nat) (h : b ≠ 0) : gcdF a b = gcdF b (a % b) := by
  obtain ⟨c, rfl⟩ := Nat.exists_eq_succ_of_ne_zero h
  have hlt : a % (c + 1) < c + 1 := Nat.mod_lt _ (by omega)
  simp only [gcdF, Nat.succ_eq_add_one]
  rw [show gcdLoop (c + 1) a (c + 1) = gcdLoop c (c + 1) (a % (c + 1)) by simp [gcdLoop],
    gcdLoop_fuel c _ _ (by omega)]

/-- Rule R100's loop computes the greatest common divisor. -/
theorem gcdF_eq_gcd (a b : Nat) : gcdF a b = Nat.gcd a b := by
  induction b using Nat.strong_induction_on generalizing a with
  | _ b ih =>
    by_cases h : b = 0
    · subst h; simp [gcdF_zero]
    · rw [gcdF_step a b h, ih _ (Nat.mod_lt _ (by omega)), Nat.gcd_comm a b, Nat.gcd_rec b a, Nat.gcd_comm]

/-- Fuel of at least `b` is enough for the recursion, whatever it is. -/
theorem egcdRec_fuel (f a b : Nat) (h : b ≤ f) : egcdRec f a b = egcdRec b a b := by
  induction f using Nat.strong_induction_on generalizing a b with
  | _ f ih =>
    match f, b, h with
    | 0, 0, _ => rfl
    | f + 1, 0, _ => simp [egcdRec]
    | f + 1, b + 1, h =>
      have hlt : a % (b + 1) < b + 1 := Nat.mod_lt _ (by omega)
      have key : egcdRec f (b + 1) (a % (b + 1)) = egcdRec b (b + 1) (a % (b + 1)) := by
        rw [ih f (by omega) _ _ (by omega)]
        by_cases hb : b = f
        · subst hb; rw [ih b (by omega) _ _ (by omega)]
        · rw [ih b (by omega) _ _ (by omega)]
      simp only [egcdRec, Nat.add_eq_zero_iff, one_ne_zero, and_false, if_false, key]

theorem egcdF_zero (a : Nat) : egcdF a 0 = (a, 1, 0) := rfl

/-- One level of rule R102's recursion. -/
theorem egcdF_step (a b : Nat) (h : b ≠ 0) :
    egcdF a b =
      ((egcdF b (a % b)).1, (egcdF b (a % b)).2.2,
        (egcdF b (a % b)).2.1 - (a / b : Nat) * (egcdF b (a % b)).2.2) := by
  obtain ⟨c, rfl⟩ := Nat.exists_eq_succ_of_ne_zero h
  have hlt : a % (c + 1) < c + 1 := Nat.mod_lt _ (by omega)
  simp only [egcdF, Nat.succ_eq_add_one]
  rw [← egcdRec_fuel c (c + 1) (a % (c + 1)) (by omega)]
  simp [egcdRec]

/-- The first component is the greatest common divisor. -/
theorem egcdF_fst (a b : Nat) : (egcdF a b).1 = Nat.gcd a b := by
  induction b using Nat.strong_induction_on generalizing a with
  | _ b ih =>
    by_cases h : b = 0
    · subst h; simp [egcdF_zero]
    · rw [egcdF_step a b h]
      simp only
      rw [ih _ (Nat.mod_lt _ (by omega)), Nat.gcd_comm a b, Nat.gcd_rec b a, Nat.gcd_comm]

/-- Rule R102: `a*x + b*y = g`. -/
theorem egcdF_bezout (a b : Nat) :
    (a : Int) * (egcdF a b).2.1 + (b : Int) * (egcdF a b).2.2 = (egcdF a b).1 := by
  induction b using Nat.strong_induction_on generalizing a with
  | _ b ih =>
    by_cases h : b = 0
    · subst h; simp [egcdF_zero]
    · have hrec := ih (a % b) (Nat.mod_lt _ (by omega)) b
      rw [egcdF_step a b h]
      simp only
      have hdm : (a : Int) = b * (a / b : Nat) + (a % b : Nat) := by exact_mod_cast (Nat.div_add_mod a b).symm
      rw [← hrec]
      conv_lhs => rw [hdm]
      ring

/-- The inverse is below its modulus (rule R104). -/
theorem modinvF_lt (a : Nat) {m : Nat} (hm : 0 < m) : modinvF a m < m := by
  have h0 := Int.emod_nonneg (egcdF a m).2.1 (show (m : Int) ≠ 0 by omega)
  have h1 := Int.emod_lt_of_pos (egcdF a m).2.1 (show (0 : Int) < m by omega)
  rw [modinvF]
  omega

/-- The inverse as an integer: `x mod m` (rule R104). -/
theorem modinvF_cast (a : Nat) {m : Nat} (hm : 0 < m) : (modinvF a m : Int) = (egcdF a m).2.1 % (m : Int) := by
  rw [modinvF, Int.toNat_of_nonneg (Int.emod_nonneg _ (by omega))]

/-- The two's-complement encoding fits its width. -/
theorem tcW_lt (W : Nat) (v : Int) : tcW W v < 2 ^ W := by
  have h0 := Int.emod_nonneg v (show (2 ^ W : Int) ≠ 0 by positivity)
  have h1 := Int.emod_lt_of_pos v (show (0 : Int) < 2 ^ W by positivity)
  rw [tcW]
  zify
  rw [Int.toNat_of_nonneg h0]
  exact_mod_cast h1

end Sys2Proof.Machine
end

