-- ==== Sys2Proof/Laws/Modexp.lean ====
section
/-! SUPPORT. Rule R160's loop and its closed form. -/

namespace Sys2Proof.Machine

/-- What the loop leaves: the accumulator times `b^e`, reduced as soon as one multiplication is made. -/
theorem modpowLoop_mod (fuel acc b e m : Nat) (hf : e ≤ fuel) :
    modpowLoop fuel acc b e m % m = acc * b ^ e % m := by
  induction fuel generalizing acc b e with
  | zero =>
    obtain rfl : e = 0 := by omega
    simp [modpowLoop]
  | succ fuel ih =>
    by_cases he : e = 0
    · subst he; simp [modpowLoop]
    · simp only [modpowLoop, he, if_false]
      rw [ih _ _ _ (by omega)]
      have hsq : (b * b % m) ^ (e / 2) ≡ (b ^ 2) ^ (e / 2) [MOD m] := by
        refine Nat.ModEq.pow _ ?_
        rw [pow_two]
        exact Nat.mod_modEq _ _
      by_cases ho : e % 2 = 1
      · rw [if_pos ho]
        have h1 : acc * b % m * (b * b % m) ^ (e / 2) ≡ acc * b * (b ^ 2) ^ (e / 2) [MOD m] :=
          Nat.ModEq.mul (Nat.mod_modEq _ _) hsq
        have h2 : acc * b * (b ^ 2) ^ (e / 2) = acc * b ^ e := by
          rw [← pow_mul, mul_assoc, ← pow_succ', show 2 * (e / 2) + 1 = e by omega]
        exact h2 ▸ h1
      · rw [if_neg ho]
        have h1 : acc * (b * b % m) ^ (e / 2) ≡ acc * (b ^ 2) ^ (e / 2) [MOD m] := Nat.ModEq.mul rfl hsq
        have h2 : acc * (b ^ 2) ^ (e / 2) = acc * b ^ e := by
          rw [← pow_mul, show 2 * (e / 2) = e by omega]
        exact h2 ▸ h1

/-- Once the accumulator is below the modulus it stays there. -/
theorem modpowLoop_lt (fuel acc b e m : Nat) (hm : 0 < m) (h : acc < m) : modpowLoop fuel acc b e m < m := by
  induction fuel generalizing acc b e with
  | zero => exact h
  | succ fuel ih =>
    simp only [modpowLoop]
    split
    · exact h
    · split
      · exact ih _ _ _ (Nat.mod_lt _ hm)
      · exact ih _ _ _ h

/-- A nonzero exponent's top bit multiplies, so the result is reduced (rule R163). -/
theorem modpowLoop_lt_of_pos (fuel acc b e m : Nat) (hm : 0 < m) (he : 0 < e) (hf : e ≤ fuel) :
    modpowLoop fuel acc b e m < m := by
  induction fuel generalizing acc b e with
  | zero => omega
  | succ fuel ih =>
    simp only [modpowLoop, show e ≠ 0 by omega, if_false]
    by_cases ho : e % 2 = 1
    · rw [if_pos ho]; exact modpowLoop_lt _ _ _ _ _ hm (Nat.mod_lt _ hm)
    · rw [if_neg ho]; exact ih _ _ _ (by omega) (by omega)

theorem modpowF_zero (b m : Nat) : modpowF b 0 m = 1 := rfl

/-- The closed form of rule R161 for a nonzero exponent. -/
theorem modpowF_pos (b : Nat) {e m : Nat} (he : 0 < e) (hm : 0 < m) : modpowF b e m = b ^ e % m := by
  have h1 := modpowLoop_mod e 1 (b % m) e m le_rfl
  rw [Nat.mod_eq_of_lt (modpowLoop_lt_of_pos e 1 (b % m) e m hm he le_rfl), one_mul] at h1
  rw [modpowF, h1, ← Nat.pow_mod]

/-- Modulo its modulus, the result is the power, whatever the exponent. -/
theorem modpowF_mod (b e m : Nat) : modpowF b e m % m = b ^ e % m := by
  rw [modpowF, modpowLoop_mod _ _ _ _ _ le_rfl, one_mul, ← Nat.pow_mod]

/-- The result is below a modulus of at least 2. -/
theorem modpowF_lt (b e : Nat) {m : Nat} (hm : 2 ≤ m) : modpowF b e m < m :=
  modpowLoop_lt _ _ _ _ _ (by omega) (by omega)

/-- The result fits the width of its modulus (rule R162). -/
theorem modpowF_lt_two_pow (b e : Nat) {m W : Nat} (hm : 0 < m) (hW : m < 2 ^ W) (h1 : 1 ≤ W) :
    modpowF b e m < 2 ^ W := by
  rcases Nat.lt_or_ge m 2 with h | h
  · obtain rfl : m = 1 := by omega
    rcases Nat.eq_zero_or_pos e with rfl | he
    · rw [modpowF_zero]; exact Nat.one_lt_two_pow (by omega)
    · rw [modpowF_pos b he (by omega)]; simp [Nat.mod_one]
  · exact (modpowF_lt b e h).trans hW

end Sys2Proof.Machine
end

