-- ==== Sys2Proof/Laws/Primality.lean ====
section
/-! SUPPORT. The random draw and the Miller-Rabin test: ranges, the draws made, and the answers that need none. -/

namespace Sys2Proof.Machine

/-- Rule R11: a draw lies in its range. -/
theorem intoRange_mem {lo hi : Nat} (v : Nat) (h : lo ≤ hi) : lo ≤ intoRange lo hi v ∧ intoRange lo hi v ≤ hi := by
  unfold intoRange
  split
  · assumption
  · have := Nat.mod_lt v (show 0 < hi + 1 - lo by omega)
    omega

/-- Rule R11: a value in range stands for itself, so every value in range can be drawn. -/
theorem intoRange_self {lo hi v : Nat} (h1 : lo ≤ v) (h2 : v ≤ hi) : intoRange lo hi v = v := by
  simp [intoRange, h1, h2]

/-- The halving loop keeps the product (rule R120). -/
theorem halve_spec (fuel s r : Nat) : 2 ^ (halve fuel s r).2 * (halve fuel s r).1 = 2 ^ r * s := by
  induction fuel generalizing s r with
  | zero => rfl
  | succ fuel ih =>
    simp only [halve]
    split
    · rw [ih, pow_succ]
      have : s = 2 * (s / 2) := by omega
      conv_rhs => rw [this]
      ring
    · rfl

theorem halve_odd (fuel s r : Nat) (h0 : 0 < s) (hf : s ≤ fuel) : (halve fuel s r).1 % 2 = 1 := by
  induction fuel generalizing s r with
  | zero => omega
  | succ fuel ih =>
    simp only [halve]
    split
    · exact ih _ _ (by omega) (by omega)
    · show s % 2 = 1; omega

theorem halve_le (fuel s r : Nat) : r ≤ (halve fuel s r).2 := by
  induction fuel generalizing s r with
  | zero => exact le_rfl
  | succ fuel ih =>
    simp only [halve]
    split
    · exact (Nat.le_succ r).trans (ih _ _)
    · exact le_rfl

/-- Rule R120: "now n - 1 = 2^r * s, s odd, r >= 1". -/
theorem oddPart_spec {n : Nat} (h3 : 3 ≤ n) (hodd : n % 2 = 1) :
    n - 1 = 2 ^ (oddPart n).2 * (oddPart n).1 ∧ (oddPart n).1 % 2 = 1 ∧ 1 ≤ (oddPart n).2 := by
  refine ⟨?_, halve_odd _ _ _ (by omega) (by omega), ?_⟩
  · rw [oddPart, halve_spec]; simp
  · obtain ⟨k, rfl⟩ : ∃ k, n = k + 1 := ⟨n - 1, by omega⟩
    simp only [oddPart, halve, Nat.add_sub_cancel, show k % 2 = 0 by omega, if_true]
    exact halve_le _ _ _

/-- The rounds make at least no draw and at most one each. -/
theorem mrRounds_taken (k n s r : Nat) (en : Entropy) :
    en.taken ≤ (mrRounds k n s r en).2.taken ∧ (mrRounds k n s r en).2.taken ≤ en.taken + k ∧
      ((mrRounds k n s r en).1 = true → (mrRounds k n s r en).2.taken = en.taken + k) := by
  induction k generalizing en with
  | zero => simp [mrRounds]
  | succ k ih =>
    simp only [mrRounds]
    split
    · obtain ⟨h1, h2, h3⟩ := ih en.advance
      simp only [draw_snd, advance_taken] at h1 h2 h3 ⊢
      exact ⟨by omega, by omega, fun h => by have := h3 h; omega⟩
    · simp

/-- Everything `mrF` can answer, and the draws each answer costs. -/
theorem mrF_cases (n rounds : Nat) (en : Entropy) :
    (n ≤ 1 ∧ mrF n rounds en = (false, en)) ∨ (n = 2 ∧ mrF n rounds en = (true, en)) ∨
    (3 ≤ n ∧ n % 2 = 0 ∧ mrF n rounds en = (false, en)) ∨
    (3 ≤ n ∧ n % 2 = 1 ∧ mrF n rounds en = mrRounds rounds n (oddPart n).1 (oddPart n).2 en) := by
  unfold mrF
  split
  · exact .inl ⟨‹_›, rfl⟩
  · split
    · exact .inr (.inl ⟨‹_›, rfl⟩)
    · split
      · exact .inr (.inr (.inl ⟨by omega, ‹_›, rfl⟩))
      · exact .inr (.inr (.inr ⟨by omega, by omega, rfl⟩))

/-- A number the test passes is 2, or odd and at least 3 (rule R129). -/
theorem mrF_passed {n rounds : Nat} {en : Entropy} (h : (mrF n rounds en).1 = true) :
    n = 2 ∨ (3 ≤ n ∧ n % 2 = 1) := by
  rcases mrF_cases n rounds en with ⟨_, h'⟩ | ⟨h', _⟩ | ⟨_, _, h'⟩ | ⟨h1, h2, _⟩
  · simp [h'] at h
  · exact .inl h'
  · simp [h'] at h
  · exact .inr ⟨h1, h2⟩

/-- The test makes at most `rounds` draws. -/
theorem mrF_taken (n rounds : Nat) (en : Entropy) :
    en.taken ≤ (mrF n rounds en).2.taken ∧ (mrF n rounds en).2.taken ≤ en.taken + rounds := by
  rcases mrF_cases n rounds en with ⟨_, h⟩ | ⟨_, h⟩ | ⟨_, _, h⟩ | ⟨_, _, h⟩ <;> rw [h]
  · simp
  · simp
  · simp
  · exact ⟨(mrRounds_taken ..).1, (mrRounds_taken ..).2.1⟩

/-- A candidate lies below 2^L (rule R126). -/
theorem attempt_candidate_lt (L rounds : Nat) (en : Entropy) : (attempt L rounds en).candidate < 2 ^ L := by
  have h := (intoRange_mem (hi := 2 ^ L - 1) en.next (Nat.zero_le _)).2
  have hp : 0 < 2 ^ L := by positivity
  simp only [attempt, draw_fst]
  omega

/-- A passing candidate is 2, or odd and at least 3 (rule R129). -/
theorem attempt_passed {L rounds : Nat} {en : Entropy} (h : (attempt L rounds en).passed = true) :
    (attempt L rounds en).candidate = 2 ∨
      (3 ≤ (attempt L rounds en).candidate ∧ (attempt L rounds en).candidate % 2 = 1) :=
  mrF_passed h

end Sys2Proof.Machine
end

