-- ==== Sys2Proof/Laws/Commands.lean ====
section
/-! SUPPORT. Everything one engine step of a command can do, said once per command and once for all of them. -/

namespace Sys2Proof.Machine

/-- GENPRIME's step: the BITLEN check, its error, a commit of a passing candidate, or a failed attempt. -/
theorem execGenprime_cases (L : Nat) (s : State) :
    (s.eng.checked = false ∧ s.cfg.W < L ∧ execGenprime L s = .next (raiseErr .badlen s)) ∨
    (s.eng.checked = false ∧ L ≤ s.cfg.W ∧
      execGenprime L s = .next { s with eng := { s.eng with checked := true } }) ∨
    (s.eng.checked = true ∧ (attempt L s.rounds.toNat s.entropy).passed = true ∧
      execGenprime L s = .next (complete [(.R, (attempt L s.rounds.toNat s.entropy).candidate)]
        { s with entropy := (attempt L s.rounds.toNat s.entropy).entropy })) ∨
    (s.eng.checked = true ∧ (attempt L s.rounds.toNat s.entropy).passed = false ∧
      execGenprime L s = .next { s with entropy := (attempt L s.rounds.toNat s.entropy).entropy }) := by
  cases hc : s.eng.checked
  · by_cases h : s.cfg.W < L
    · exact .inl ⟨rfl, h, by simp [execGenprime, hc, h]⟩
    · exact .inr (.inl ⟨rfl, by omega, by simp [execGenprime, hc, h]⟩)
  · cases hp : (attempt L s.rounds.toNat s.entropy).passed
    · exact .inr (.inr (.inr ⟨rfl, rfl, by simp [execGenprime, genprimeAttempt, hc, hp]⟩))
    · exact .inr (.inr (.inl ⟨rfl, rfl, by simp [execGenprime, genprimeAttempt, hc, hp]⟩))

/-- KEYGEN's arithmetic on two primes: EXPNOTINV, or the five writes. -/
theorem keygenFinish_cases (p q : Nat) (s : State) :
    (Nat.gcd 65537 ((p - 1) * (q - 1)) ≠ 1 ∧ keygenFinish p q s = raiseErr .expnotinv s) ∨
    (Nat.gcd 65537 ((p - 1) * (q - 1)) = 1 ∧
      keygenFinish p q s =
        complete [(.E, 65537), (.N, p * q), (.D, modinvF 65537 ((p - 1) * (q - 1))), (.P, p), (.Q, q)] s) := by
  simp only [keygenFinish, gcdF_eq_gcd]
  by_cases h : Nat.gcd Config.eConst ((p - 1) * (q - 1)) = 1
  · exact .inr ⟨h, if_neg (fun h' => h' h)⟩
  · exact .inl ⟨h, if_pos h⟩

/-- KEYGEN's step: the check or its error, a p-attempt, or a q-attempt. -/
theorem execKeygen_cases (L : Nat) (s : State) :
    (s.eng.phase ≠ .kgQ ∧ s.eng.checked = false ∧ (L = 0 ∨ s.cfg.W < L) ∧
      execKeygen L s = .next (raiseErr .badlen s)) ∨
    (s.eng.phase ≠ .kgQ ∧ s.eng.checked = false ∧ 1 ≤ L ∧ L ≤ s.cfg.W ∧
      execKeygen L s = .next { s with eng := { s.eng with phase := .run, checked := true } }) ∨
    (s.eng.phase ≠ .kgQ ∧ s.eng.checked = true ∧ (attempt (L / 2) s.rounds.toNat s.entropy).passed = true ∧
      execKeygen L s = .next
        { s with entropy := (attempt (L / 2) s.rounds.toNat s.entropy).entropy,
                 eng := { s.eng with kgP := (attempt (L / 2) s.rounds.toNat s.entropy).candidate, phase := .kgQ } }) ∨
    (s.eng.phase = .kgQ ∧ (attempt (L / 2) s.rounds.toNat s.entropy).passed = true ∧
      execKeygen L s = .next (keygenFinish s.eng.kgP (attempt (L / 2) s.rounds.toNat s.entropy).candidate
        { s with entropy := (attempt (L / 2) s.rounds.toNat s.entropy).entropy })) ∨
    ((s.eng.phase = .kgQ ∨ s.eng.checked = true) ∧ (attempt (L / 2) s.rounds.toNat s.entropy).passed = false ∧
      execKeygen L s = .next { s with entropy := (attempt (L / 2) s.rounds.toNat s.entropy).entropy }) := by
  by_cases hq : s.eng.phase = .kgQ
  · cases hp : (attempt (L / 2) s.rounds.toNat s.entropy).passed
    · exact .inr (.inr (.inr (.inr ⟨.inl hq, rfl, by simp [execKeygen, keygenAttemptQ, hq, hp]⟩)))
    · exact .inr (.inr (.inr (.inl ⟨hq, rfl, by simp [execKeygen, keygenAttemptQ, hq, hp]⟩)))
  · cases hc : s.eng.checked
    · by_cases h : L = 0 ∨ s.cfg.W < L
      · exact .inl ⟨hq, rfl, h, by simp [execKeygen, keygenCheck, hq, hc, h]⟩
      · exact .inr (.inl ⟨hq, rfl, by omega, by omega, by simp [execKeygen, keygenCheck, hq, hc, h]⟩)
    · cases hp : (attempt (L / 2) s.rounds.toNat s.entropy).passed
      · exact .inr (.inr (.inr (.inr ⟨.inr rfl, rfl, by simp [execKeygen, keygenAttemptP, hq, hc, hp]⟩)))
      · exact .inr (.inr (.inl ⟨hq, rfl, rfl, by simp [execKeygen, keygenAttemptP, hq, hc, hp]⟩))

/-- The CRT checks: DIVZERO, then NOINV, then none (rule R183). -/
theorem crtChecks_cases (n p q : Nat) :
    ((p ≤ 1 ∨ q ≤ 1 ∨ n = 0) ∧ crtChecks n p q = .divzero) ∨
    (2 ≤ p ∧ 2 ≤ q ∧ n ≠ 0 ∧ Nat.gcd q p ≠ 1 ∧ crtChecks n p q = .noinv) ∨
    (2 ≤ p ∧ 2 ≤ q ∧ n ≠ 0 ∧ Nat.gcd q p = 1 ∧ crtChecks n p q = .none) := by
  unfold crtChecks
  rw [gcdF_eq_gcd]
  by_cases h : p ≤ 1 ∨ q ≤ 1 ∨ n = 0
  · exact .inl ⟨h, if_pos h⟩
  · by_cases hg : Nat.gcd q p = 1
    · exact .inr (.inr ⟨by omega, by omega, by omega, hg, by rw [if_neg h, if_neg (fun h' => h' hg)]⟩)
    · exact .inr (.inl ⟨by omega, by omega, by omega, hg, by rw [if_neg h, if_pos hg]⟩)

/-- DECRYPT_CRT's step: one of its two errors, or the commit of R. -/
theorem execDecryptCrt_cases (s : State) :
    ((s.regs.get .P ≤ 1 ∨ s.regs.get .Q ≤ 1 ∨ s.regs.get .N = 0) ∧ execDecryptCrt s = .next (raiseErr .divzero s)) ∨
    (2 ≤ s.regs.get .P ∧ 2 ≤ s.regs.get .Q ∧ s.regs.get .N ≠ 0 ∧ Nat.gcd (s.regs.get .Q) (s.regs.get .P) ≠ 1 ∧
      execDecryptCrt s = .next (raiseErr .noinv s)) ∨
    (2 ≤ s.regs.get .P ∧ 2 ≤ s.regs.get .Q ∧ s.regs.get .N ≠ 0 ∧ Nat.gcd (s.regs.get .Q) (s.regs.get .P) = 1 ∧
      execDecryptCrt s = .next (complete [(.R, crtF (s.regs.get .A) (s.regs.get .D) (s.regs.get .N) (s.regs.get .P)
        (s.regs.get .Q))] s)) := by
  rcases crtChecks_cases (s.regs.get .N) (s.regs.get .P) (s.regs.get .Q) with
    ⟨h, hc⟩ | ⟨h1, h2, h3, h4, hc⟩ | ⟨h1, h2, h3, h4, hc⟩
  · exact .inl ⟨h, by simp only [execDecryptCrt, hc]⟩
  · exact .inr (.inl ⟨h1, h2, h3, h4, by simp only [execDecryptCrt, hc]⟩)
  · exact .inr (.inr ⟨h1, h2, h3, h4, by simp only [execDecryptCrt, hc]⟩)

/-- The CRT value is below its modulus (rule R184). -/
theorem crtF_lt (c d p q : Nat) {n : Nat} (hn : 0 < n) : crtF c d n p q < n := Nat.mod_lt _ hn

/-- Every engine step of every command answers a next state of one of four shapes: a search step that touches the entropy
source and the engine only, a commit of registers of the command's own, MRTEST's commit, or an error completion. -/
theorem exec_shapes (i : Instr) (s : State) : ∃ t, exec i s = .next t ∧
    ((∃ en e, t = { s with entropy := en, eng := e } ∧ e.op = s.eng.op ∧ e.bitlen = s.eng.bitlen ∧
        (e.phase = .run ∨ e.phase = .kgQ ∨ e.phase = s.eng.phase) ∧ ∃ L, i = .genprime L ∨ i = .keygen L) ∨
     (∃ ws en, t = complete ws { s with entropy := en } ∧ ∀ w ∈ ws, w.1 ∈ writesOf i) ∨
     (∃ b en, i = .mrtest ∧ t = completePrime b { s with entropy := en }) ∨
     (∃ code en, t = raiseErr code { s with entropy := en } ∧ code ≠ .none)) := by
  cases i with
  | gcd => exact ⟨_, rfl, .inr (.inl ⟨_, s.entropy, rfl, by simp [writesOf]⟩)⟩
  | egcd => exact ⟨_, rfl, .inr (.inl ⟨_, s.entropy, rfl, by simp [writesOf]⟩)⟩
  | modinv =>
    simp only [exec, execModinv]
    split
    · exact ⟨_, rfl, .inr (.inr (.inr ⟨_, s.entropy, rfl, by simp⟩))⟩
    · split
      · exact ⟨_, rfl, .inr (.inr (.inr ⟨_, s.entropy, rfl, by simp⟩))⟩
      · exact ⟨_, rfl, .inr (.inl ⟨_, s.entropy, rfl, by simp [writesOf]⟩)⟩
  | mrtest => exact ⟨_, rfl, .inr (.inr (.inl ⟨_, _, rfl, rfl⟩))⟩
  | genprime L =>
    rcases execGenprime_cases L s with ⟨_, _, h⟩ | ⟨_, _, h⟩ | ⟨_, _, h⟩ | ⟨_, _, h⟩
    · exact ⟨_, h, .inr (.inr (.inr ⟨_, s.entropy, rfl, by simp⟩))⟩
    · exact ⟨_, h, .inl ⟨s.entropy, _, rfl, rfl, rfl, .inr (.inr rfl), L, .inl rfl⟩⟩
    · exact ⟨_, h, .inr (.inl ⟨_, _, rfl, by simp [writesOf]⟩)⟩
    · exact ⟨_, h, .inl ⟨_, s.eng, rfl, rfl, rfl, .inr (.inr rfl), L, .inl rfl⟩⟩
  | keygen L =>
    rcases execKeygen_cases L s with ⟨_, _, _, h⟩ | ⟨_, _, _, _, h⟩ | ⟨_, _, _, h⟩ | ⟨_, _, h⟩ | ⟨_, _, h⟩
    · exact ⟨_, h, .inr (.inr (.inr ⟨_, s.entropy, rfl, by simp⟩))⟩
    · exact ⟨_, h, .inl ⟨s.entropy, _, rfl, rfl, rfl, .inl rfl, L, .inr rfl⟩⟩
    · exact ⟨_, h, .inl ⟨_, _, rfl, rfl, rfl, .inr (.inl rfl), L, .inr rfl⟩⟩
    · rcases keygenFinish_cases s.eng.kgP (attempt (L / 2) s.rounds.toNat s.entropy).candidate
        { s with entropy := (attempt (L / 2) s.rounds.toNat s.entropy).entropy } with ⟨_, hf⟩ | ⟨_, hf⟩
      · exact ⟨_, h, .inr (.inr (.inr ⟨_, _, hf, by simp⟩))⟩
      · exact ⟨_, h, .inr (.inl ⟨_, _, hf, by simp [writesOf]⟩)⟩
    · exact ⟨_, h, .inl ⟨_, s.eng, rfl, rfl, rfl, .inr (.inr rfl), L, .inr rfl⟩⟩
  | modpow =>
    simp only [exec, execModpow]
    split
    · exact ⟨_, rfl, .inr (.inr (.inr ⟨_, s.entropy, rfl, by simp⟩))⟩
    · exact ⟨_, rfl, .inr (.inl ⟨_, s.entropy, rfl, by simp [writesOf]⟩)⟩
  | encrypt =>
    simp only [exec, execEncrypt, unitDirect]
    split
    · exact ⟨_, rfl, .inr (.inr (.inr ⟨_, s.entropy, rfl, by simp⟩))⟩
    · exact ⟨_, rfl, .inr (.inl ⟨_, s.entropy, rfl, by simp [writesOf]⟩)⟩
  | decrypt =>
    simp only [exec, execDecrypt, unitDirect]
    split
    · exact ⟨_, rfl, .inr (.inr (.inr ⟨_, s.entropy, rfl, by simp⟩))⟩
    · exact ⟨_, rfl, .inr (.inl ⟨_, s.entropy, rfl, by simp [writesOf]⟩)⟩
  | decryptCrt =>
    rcases execDecryptCrt_cases s with ⟨_, h⟩ | ⟨_, _, _, _, h⟩ | ⟨_, _, _, _, h⟩
    · exact ⟨_, h, .inr (.inr (.inr ⟨_, s.entropy, rfl, by simp⟩))⟩
    · exact ⟨_, h, .inr (.inr (.inr ⟨_, s.entropy, rfl, by simp⟩))⟩
    · exact ⟨_, h, .inr (.inl ⟨_, s.entropy, rfl, by simp [writesOf]⟩)⟩

end Sys2Proof.Machine
end

