-- ==== Sys2Proof/Laws/PerInstr.lean ====
section
/-! SUPPORT. Statements made for all commands, one lemma per constructor of `Instr`. -/

namespace Sys2Proof.Laws.EncodedFields

/-- The encoding of a well-formed command holds its opcode, a zero RSVD and its BITLEN, each in its own bits, and no bit
more (`30_encoding.md` rules R80, R82, R83, R88). -/
def Statement (i : Instr) : Prop :=
  WellFormed i →
    (opField (encode i)).toNat = opcode i ∧ rsvdField (encode i) = 0 ∧ (bitlenField (encode i)).toNat = bitlenOf i ∧
      (encode i).toNat = opcode i + 2 ^ 16 * bitlenOf i

/-- The fields of a word made of an opcode and a BITLEN that fit theirs. -/
theorem fields_of_parts {i : Instr} (ho : opcode i < 2 ^ 8) (hb : bitlenOf i < 2 ^ 16) :
    (opField (encode i)).toNat = opcode i ∧ rsvdField (encode i) = 0 ∧ (bitlenField (encode i)).toNat = bitlenOf i ∧
      (encode i).toNat = opcode i + 2 ^ 16 * bitlenOf i := by
  have he : (encode i).toNat = opcode i + bitlenOf i * 2 ^ 16 := by
    rw [encode, BitVec.toNat_ofNat]
    omega
  refine ⟨by rw [opField_toNat]; omega, BitVec.eq_of_toNat_eq ?_, by rw [bitlenField_toNat]; omega, by omega⟩
  rw [rsvdField_toNat, he, show (0 : BitVec 8).toNat = 0 from rfl]
  omega

theorem gcd : Statement .gcd := fun _ => fields_of_parts (by decide) (by decide)
theorem egcd : Statement .egcd := fun _ => fields_of_parts (by decide) (by decide)
theorem modinv : Statement .modinv := fun _ => fields_of_parts (by decide) (by decide)
theorem mrtest : Statement .mrtest := fun _ => fields_of_parts (by decide) (by decide)
theorem genprime (bitlen : Nat) : Statement (.genprime bitlen) := fun h =>
  fields_of_parts (i := .genprime bitlen) (by decide : 5 < 2 ^ 8)
    (by simp only [WellFormed, Instr.wellFormed, decide_eq_true_eq] at h; simp only [bitlenOf]; omega)
theorem keygen (bitlen : Nat) : Statement (.keygen bitlen) := fun h =>
  fields_of_parts (i := .keygen bitlen) (by decide : 6 < 2 ^ 8)
    (by simp only [WellFormed, Instr.wellFormed, decide_eq_true_eq] at h; simp only [bitlenOf]; omega)
theorem modpow : Statement .modpow := fun _ => fields_of_parts (by decide) (by decide)
theorem encrypt : Statement .encrypt := fun _ => fields_of_parts (by decide) (by decide)
theorem decrypt : Statement .decrypt := fun _ => fields_of_parts (by decide) (by decide)
theorem decryptCrt : Statement .decryptCrt := fun _ => fields_of_parts (by decide) (by decide)

end Sys2Proof.Laws.EncodedFields
end

