-- ==== Sys2Proof/Laws/Step.lean ====
section
/-! SUPPORT. The agents' steps: what each can do, said once. -/

namespace Sys2Proof.Machine

/-- With nothing scheduled the engine steps. -/
theorem step_nil {s : State} (h : s.schedule = []) : step s = engineStep s := by simp only [step, h]

/-- Otherwise the next entry is taken and performed. -/
theorem step_cons {s : State} {e : Event} {rest : List Event} (h : s.schedule = e :: rest) :
    step s = perform e { s with schedule := rest } := by simp only [step, h]

/-- An idle engine has no step (rule R200). -/
theorem engineStep_idle {s : State} (h : s.eng.phase = .idle) : engineStep s = .next s := by
  simp only [engineStep, h, if_true]

/-- A running engine runs the command its latches hold (rule R200). -/
theorem engineStep_running {s : State} {i : Instr} (h : s.eng.phase ≠ .idle) (hd : decode s.eng.word = .legal i) :
    engineStep s = exec i s := by simp only [engineStep, if_neg h, hd]

/-- Under the invariant, that command is the word in CMD (rules R37, R201). -/
theorem engineStep_cmd {s : State} (hi : Inv s) (h : s.eng.phase ≠ .idle) :
    ∃ i, decode s.cmd = .legal i ∧ engineStep s = exec i s ∧ opcode i = s.eng.op.toNat ∧
      bitlenOf i = s.eng.bitlen.toNat := by
  obtain ⟨⟨i, hd⟩, hop, hbl⟩ := hi.latched h
  refine ⟨i, hd, engineStep_running h (by rw [engineWord_eq hd _ hop hbl]; exact hd), ?_, ?_⟩
  · rw [hop]; exact (decode_legal hd).1
  · rw [hbl]; exact (decode_legal hd).2.1

/-- A poll changes the answer, the fault mark and the schedule, and nothing of the block (rule R59). -/
theorem pollStep_shape (addr : Nat) (mask value : Word) (s : State) :
    ∃ resp f sch, pollStep addr mask value s = { s with response := some resp, faulted := f, schedule := sch } := by
  obtain ⟨resp, f, h, _⟩ := transact_read_shape addr .word s
  simp only [pollStep, h]
  split
  · split <;> exact ⟨_, _, _, rfl⟩
  · exact ⟨_, _, _, rfl⟩

/-- A reset leaves the reset state of the block, its parameters and the model's own fields (rules R39, R230). -/
theorem resetStep_shape (cutOff : Option Txn) (s : State) :
    ∃ resp, resetStep cutOff s =
      { State.resetWith s.cfg with
          entropy := s.entropy, schedule := s.schedule, response := resp, faulted := s.faulted } := by
  cases cutOff <;> exact ⟨_, rfl⟩

/-- The invariant is about the block: it does not see the model's own fields, CTRL or CFG. -/
theorem inv_of_block {s t : State} (hi : Inv s) (h1 : t.cfg = s.cfg) (h2 : t.regs = s.regs) (h3 : t.status = s.status)
    (h4 : t.eng = s.eng) (h5 : t.cmd = s.cmd) : Inv t := by
  obtain ⟨a, b, c, d, e, f, g, h, i, j⟩ := hi
  constructor <;> simp only [h1, h2, h3, h4, h5] <;> assumption

/-- One step, then `k` more. -/
theorem runSteps_succ (k : Nat) {s t : State} (h : step s = .next t) : runSteps (k + 1) s = runSteps k t := by
  simp only [runSteps, Host.Core.run]
  rw [show Sys2Proof.core.step s = .next t from h]

/-- `k` steps, then one more. -/
theorem runSteps_snoc (k : Nat) {s t u : State} (h : runSteps k s = .next t) (hu : step t = .next u) :
    runSteps (k + 1) s = .next u := by
  induction k generalizing s with
  | zero => cases h; rw [runSteps_succ _ hu]; rfl
  | succ k ih =>
    cases hs : step s with
    | next s' => rw [runSteps_succ _ hs] at h; rw [runSteps_succ _ hs]; exact ih h
    | fault r => simp [runSteps, Host.Core.run, Sys2Proof.core, hs] at h
    | refused r => simp [runSteps, Host.Core.run, Sys2Proof.core, hs] at h

end Sys2Proof.Machine
end

