-- ==== Sys2Proof/Tests/Slice0.lean ====
section
/-! SUPPORT. The model's own tests, and one witness per statement that has hypotheses.

Expected results come from the spec: the encodings of `30_encoding.md` rules R80, R84 and R91, and the vectors of
`95_test_vectors.md`, named by their number. -/

namespace Sys2Proof.Tests

open Sys2Proof.Machine Sys2Proof.Claims

/-! ## Helpers -/

/-- W = 32 at bus address 0, and W = 64 at bus address 0x4000. -/
def w32 : Config := { nw := 1, base := 0 }
def w64 : Config := { nw := 2, base := 0x4000 }

/-- The state of a block with parameters `c` that has just accepted `i`, with these operands, rounds and lined-up draws. -/
def accepted (c : Config) (i : Instr) (rs : Regs) (rounds : BitVec 8 := 40) (draws : List Nat := []) : State :=
  { withAcceptedWord (encode i) (State.resetWith c) with
      regs := rs, rounds := rounds, entropy := { queue := draws, taken := 0 } }

/-- What `f` sees of the next state, if there is one. -/
def seen {α : Type} (o : StepOutcome) (f : State → α) : Option α :=
  match o with
  | .next t => some (f t)
  | .fault _ => none
  | .refused _ => none

/-- R and the STATUS word. -/
def result (t : State) : Nat × Word := (t.regs.r, t.status.word)

/-- R, X, Y and the STATUS word. -/
def triple (t : State) : Nat × Nat × Nat × Word := (t.regs.r, t.regs.x, t.regs.y, t.status.word)

/-- E, N, D, P, Q and the STATUS word. -/
def key (t : State) : List Nat × Word := ([t.regs.e, t.regs.n, t.regs.d, t.regs.p, t.regs.q], t.status.word)

/-- An answer to a read or a write, as its error if it is one. -/
def errorOf {α : Type} : Answer α → Option BusError
  | .ok _ => none
  | .busError why => some why

/-! ## WellFormed: what it refuses -/

theorem test_genprime_65535_is_wellFormed : Instr.wellFormed (.genprime 65535) = true := by decide
theorem test_genprime_65536_is_illFormed : Instr.wellFormed (.genprime 65536) = false := by decide
theorem test_keygen_65536_is_illFormed : Instr.wellFormed (.keygen 65536) = false := by decide

/-! ## Decode: words written out field by field, BITLEN, RSVD, OP -/

theorem test_decode_gcd : decode 0b0000000000000000_00000000_00000001#32 = .legal .gcd := by decide
theorem test_decode_egcd : decode 0b0000000000000000_00000000_00000010#32 = .legal .egcd := by decide
theorem test_decode_modinv : decode 0b0000000000000000_00000000_00000011#32 = .legal .modinv := by decide
theorem test_decode_mrtest : decode 0b0000000000000000_00000000_00000100#32 = .legal .mrtest := by decide
theorem test_decode_genprime : decode 0b0000000000010000_00000000_00000101#32 = .legal (.genprime 16) := by decide
theorem test_decode_keygen : decode 0b0000100000000000_00000000_00000110#32 = .legal (.keygen 2048) := by decide
theorem test_decode_modpow : decode 0b0000000000000000_00000000_00000111#32 = .legal .modpow := by decide
theorem test_decode_encrypt : decode 0b0000000000000000_00000000_00001000#32 = .legal .encrypt := by decide
theorem test_decode_decrypt : decode 0b0000000000000000_00000000_00001001#32 = .legal .decrypt := by decide
theorem test_decode_decryptCrt : decode 0b0000000000000000_00000000_00001010#32 = .legal .decryptCrt := by decide

/-- Rule R87's four kinds, and a byte list that is no word. -/
theorem test_decode_illegal_kinds :
    decode 0x00000000 = .illegal .opZero ∧ decode 0x0000000B = .illegal .opUnassigned ∧
    decode 0x000000FF = .illegal .opUnassigned ∧ decode 0x00000101 = .illegal .rsvdNonzero ∧
    decode 0x00010001 = .illegal .strayBitlen ∧ decodeLanes [0x01#8] = .illegal .notOneWord := by decide

/-- The table's bits, a BITLEN in its upper half. -/
theorem test_decodeTableWord :
    decodeTableWord 32 0x00080006 = some (.keygen 8) ∧ decodeTableWord 32 0x00000107 = none := by decide

/-- Rule R88's assembler: an encoding, and the three kinds it refuses. -/
theorem test_assemble :
    assemble "GENPRIME" (some 16) = some 0x00100005 ∧ assemble "GENPRIME" (some 65536) = none ∧
    assemble "GCD" (some 0) = none ∧ assemble "KEYGEN" none = none ∧ assemble "DECRYPT_CRT" none = some 0x0000000A := by
  decide

/-! ## The commands -/

/-- Vector G1. -/
theorem test_gcd_48_18 : seen (step (accepted w32 .gcd { Regs.zero with a := 48, b := 18 })) result = some (6, 0x2) := by
  decide

/-- Vector G3: the result 0 replaces an old R. -/
theorem test_gcd_0_0 : seen (step (accepted w32 .gcd { Regs.zero with r := 9 })) result = some (0, 0x2) := by decide

/-- Vector G9: X negative. -/
theorem test_egcd_15_35 :
    seen (step (accepted w32 .egcd { Regs.zero with a := 15, b := 35 })) triple = some (5, 0xFFFFFFFE, 1, 0x2) := by decide

/-- Vector G16: the recursion's pair, not another one. -/
theorem test_egcd_1_1 :
    seen (step (accepted w32 .egcd { Regs.zero with a := 1, b := 1 })) triple = some (1, 0, 1, 0x2) := by decide

/-- Vector G21: the coefficient -367 is normalised. -/
theorem test_modinv_17_3120 :
    seen (step (accepted w32 .modinv { Regs.zero with a := 17, m := 3120 })) result = some (2753, 0x2) := by decide

/-- Vectors G28, G29: the two errors leave R. -/
theorem test_modinv_errors :
    seen (step (accepted w32 .modinv { Regs.zero with a := 5, r := 9 })) result = some (9, 0x206) ∧
    seen (step (accepted w32 .modinv { Regs.zero with m := 7, r := 9 })) result = some (9, 0x306) := by decide

/-- Vectors M6, M7: 561 fails on the witness 2, and passes on two strong liars. -/
theorem test_mrtest_561 :
    seen (step (accepted w32 .mrtest { Regs.zero with a := 561 } 1 [2])) result = some (0, 0x2) ∧
    seen (step (accepted w32 .mrtest { Regs.zero with a := 561 } 2 [50, 560])) result = some (1, 0xA) := by decide +kernel

/-- Vectors M2, M3, M10: the answers without a draw. -/
theorem test_mrtest_without_draws :
    seen (step (accepted w32 .mrtest { Regs.zero with a := 2 })) result = some (1, 0xA) ∧
    seen (step (accepted w32 .mrtest { Regs.zero with a := 100 })) result = some (0, 0x2) ∧
    seen (step (accepted w32 .mrtest { Regs.zero with a := 9 } 0)) result = some (1, 0xA) := by decide

/-- A state past the BITLEN check of a search. -/
def searching (c : Config) (i : Instr) (rounds : BitVec 8) (draws : List Nat) : State :=
  let s := accepted c i Regs.zero rounds draws
  { s with eng := { s.eng with checked := true } }

/-- KEYGEN with a p found, searching for q. -/
def searchingQ (c : Config) (bitlen : Nat) (p : Nat) (rounds : BitVec 8) (draws : List Nat) : State :=
  let s := searching c (.keygen bitlen) rounds draws
  { s with eng := { s.eng with phase := .kgQ, kgP := p } }

/-- Vector M16, its last step: 211 with witness 2; and its second: 200 is even and changes nothing. -/
theorem test_genprime_attempts :
    seen (step (searching w32 (.genprime 8) 1 [211, 2])) result = some (211, 0x2) ∧
    seen (step (searching w32 (.genprime 8) 1 [200])) result = some (0, 0x1) := by decide +kernel

/-- Vectors M22, M23: 33 is too long for W = 32, and 32 is not. -/
theorem test_genprime_badlen :
    seen (step (accepted w32 (.genprime 33) Regs.zero)) result = some (0, 0x506) ∧
    seen (step (accepted w32 (.genprime 32) Regs.zero)) result = some (0, 0x1) := by decide

/-- Vector K1, its last step: p = 11, q = 13 with witness 2. -/
theorem test_keygen_key :
    seen (step (searchingQ w32 8 11 1 [13, 2])) key = some ([65537, 143, 113, 11, 13], 0x2) := by decide +kernel

/-- Vector K8, its last step: EXPNOTINV; and vectors K10, K11: BADLEN. -/
theorem test_keygen_errors :
    seen (step (searchingQ w64 40 917519 0 [1000003])) key = some ([0, 0, 0, 0, 0], 0x406) ∧
    seen (step (accepted w32 (.keygen 0) Regs.zero)) key = some ([0, 0, 0, 0, 0], 0x506) ∧
    seen (step (accepted w64 (.keygen 65) Regs.zero)) key = some ([0, 0, 0, 0, 0], 0x506) := by decide +kernel

/-- Vectors X1, X2: 2^10 mod 1000; and 1 for a zero exponent, even modulo 1. -/
theorem test_modpow :
    seen (step (accepted w32 .modpow { Regs.zero with a := 2, b := 10, m := 1000 })) result = some (24, 0x2) ∧
    seen (step (accepted w32 .modpow { Regs.zero with a := 5, m := 1 })) result = some (1, 0x2) := by decide

/-- Vector X11: a zero modulus is an error even for a zero exponent. -/
theorem test_modpow_divzero :
    seen (step (accepted w32 .modpow { Regs.zero with a := 5, r := 9 })) result = some (9, 0x206) := by decide

/-- Vectors S6, C10. -/
theorem test_encrypt :
    seen (step (accepted w32 .encrypt { Regs.zero with a := 65, e := 17, n := 3233 })) result = some (2790, 0x2) ∧
    seen (step (accepted w32 .encrypt { Regs.zero with a := 65, e := 17 })) result = some (0, 0x206) := by decide +kernel

/-- Vectors S7, C12. -/
theorem test_decrypt :
    seen (step (accepted w32 .decrypt { Regs.zero with a := 2790, d := 2753, n := 3233 })) result = some (65, 0x2) ∧
    seen (step (accepted w32 .decrypt { Regs.zero with n := 4 })) result = some (1, 0x2) := by decide +kernel

/-- Vector S8: m1 < m2, so the floor modulus matters. -/
theorem test_decryptCrt :
    seen (step (accepted w32 .decryptCrt
      { Regs.zero with a := 2790, d := 2753, n := 3233, p := 61, q := 53 })) result = some (65, 0x2) := by decide +kernel

/-- Vectors C4, C7, C8, C9. -/
theorem test_decryptCrt_corners :
    seen (step (accepted w32 .decryptCrt { Regs.zero with a := 2, d := 1, n := 6, p := 2, q := 3 })) result = some (5, 0x2) ∧
    seen (step (accepted w32 .decryptCrt { Regs.zero with n := 121, p := 11, q := 11 })) result = some (0, 0x306) ∧
    seen (step (accepted w32 .decryptCrt { Regs.zero with n := 6, p := 1, q := 3 })) result = some (0, 0x206) ∧
    seen (step (accepted w32 .decryptCrt { Regs.zero with p := 61, q := 53 })) result = some (0, 0x206) := by decide +kernel

/-! ## The window and the protocol -/

/-- Vectors B1 to B5 leave STATUS = 0x106, with BUSY never set. -/
theorem test_illegal_words_complete_at_once :
    [0x0000000B, 0x00000000, 0x00000101, 0x00010001, 0x000000FF].map
      (fun w => (acceptCommand w (State.resetWith w32)).status.word) = List.replicate 5 0x106 := by decide

/-- Vectors B6 to B9. -/
theorem test_bus_errors :
    errorOf (memRead 0x1002 (State.resetWith w32)) = some .misaligned ∧
    errorOf (memRead 0x2600 (State.resetWith w32)) = some .unmapped ∧
    errorOf (memRead 0x01C (State.resetWith w32)) = some .unmapped ∧
    errorOf (memWrite 0x3FFC 0 (State.resetWith w32)) = some .unmapped ∧
    errorOf (memRead 0x2008 (State.resetWith w64)) = some .noSlot ∧
    errorOf (memWrite 0x000 0 (State.resetWith w32)) = some .readOnly := by decide

/-- Vectors B10, B11, on a running GCD. -/
theorem test_busy_interlock :
    errorOf (memRead 0x1000 (accepted w32 .gcd Regs.zero)) = some .busy ∧
    errorOf (memWrite 0x014 1 (accepted w32 .gcd Regs.zero)) = some .busy ∧
    errorOf (memWrite 0x010 5 (accepted w32 .gcd Regs.zero)) = some .busy ∧
    memRead 0x018 (accepted w32 .gcd Regs.zero) = .ok 0x1 := by decide

/-- Rule R89's example N[1], program P3's R[2], and rule R52's table. -/
theorem test_operand_offsets :
    regOffset .R 2 = 0x2008 ∧ regOffset .N 1 = 0x1A04 ∧ regOffset .Y 0 = 0x2400 := by decide

/-- Vectors B13, B14. -/
theorem test_status_write :
    (raiseErr .divzero (State.resetWith w32)).status.word = 0x206 ∧
    (acknowledge (raiseErr .divzero (State.resetWith w32))).status.word = 0x0 ∧
    memWrite 0x018 0x0F0D (raiseErr .divzero (State.resetWith w32)) = .ok (raiseErr .divzero (State.resetWith w32)) := by
  decide

/-! ## Witnesses

For each statement with hypotheses, a concrete state and operands that meet all of them; a statement with several clauses has
one for each, at a bound of its range. `witness_inv_…` are the states with the invariant the others use. -/

/-- A done block: GCD has just completed. -/
def done32 : State := complete [(.R, 6)] (accepted w32 .gcd { Regs.zero with a := 48, b := 18 })

theorem witness_inv_idle : Inv (State.resetWith w64) ∧ (State.resetWith w64).status.busy = false :=
  ⟨⟨by decide, by intro r; cases r <;> decide, by decide, by decide, by decide, by decide, by decide,
    fun h => absurd rfl h, by decide, by decide⟩, rfl⟩

theorem witness_inv_largest : Inv (State.resetWith { nw := 128, base := 0xFFFFC000 }) :=
  ⟨by decide, by intro r; cases r <;> exact Nat.two_pow_pos _, by decide, by decide, by decide, by decide, by decide,
    fun h => absurd rfl h, by decide, by decide⟩

theorem witness_inv_busy : Inv (accepted w32 .decryptCrt { Regs.zero with a := 0xFFFFFFFF }) :=
  ⟨by decide, by intro r; cases r <;> decide, by decide, by decide, by decide, by decide, by decide,
    fun _ => ⟨⟨.decryptCrt, by decide⟩, by decide, by decide⟩, by decide, by decide⟩

theorem witness_inv_done : Inv done32 ∧ done32.status.done = true :=
  ⟨⟨by decide, by intro r; cases r <;> decide, by decide, by decide, by decide, by decide, by decide,
    fun h => absurd rfl h, by decide, by decide⟩, rfl⟩

theorem witness_inv_genprime (bitlen : Nat) (h : bitlen ≤ 2) : Inv (accepted w32 (.genprime bitlen) Regs.zero 40 [2]) := by
  interval_cases bitlen <;>
    exact ⟨by decide, by intro r; cases r <;> decide, by decide, by decide, by decide, by decide, by decide,
      fun _ => ⟨⟨_, rfl⟩, by decide, by decide⟩, by decide, by decide⟩

theorem witness_inv_keygen (bitlen : Nat) (h : 1 ≤ bitlen ∧ bitlen ≤ 3) : Inv (accepted w32 (.keygen bitlen) Regs.zero) := by
  obtain ⟨h1, h3⟩ := h
  interval_cases bitlen <;>
    exact ⟨by decide, by intro r; cases r <;> decide, by decide, by decide, by decide, by decide, by decide,
      fun _ => ⟨⟨_, rfl⟩, by decide, by decide⟩, by decide, by decide⟩

theorem witness_inv_keygen_q : Inv (searchingQ w32 8 11 0 [13]) :=
  ⟨by decide, by intro r; cases r <;> decide, by decide, by decide, by decide, by decide, by decide,
    fun _ => ⟨⟨_, rfl⟩, by decide, by decide⟩, by decide, by decide⟩

theorem witness_inv_keygen_q_expnotinv : Inv (searchingQ w64 40 917519 0 [1000003]) :=
  ⟨by decide, by intro r; cases r <;> decide, by decide, by decide, by decide, by decide, by decide,
    fun _ => ⟨⟨_, rfl⟩, by decide, by decide⟩, by decide, by decide⟩


/-! ### Encoding -/

theorem witness_DecodeOfEncodeIsTheCommand :
    WellFormed (.genprime 0) ∧ WellFormed (.keygen 65535) ∧ WellFormed .decryptCrt := by decide

theorem witness_EncodeOfDecodeIsTheWord : decode 0xFFFF0006 = .legal (.keygen 65535) := by decide

theorem witness_DecodeRejectsExactlyTheIllegalWords :
    ((0x00000000 : Word).toNat % 2 ^ 8 < 0x01) ∧ ((0x0000000B : Word).toNat % 2 ^ 8 > 0x0A) ∧
    ((0x00000101 : Word).toNat / 2 ^ 8 % 2 ^ 8 ≠ 0) ∧
    ((0x00010004 : Word).toNat % 2 ^ 8 ≠ 0x05 ∧ (0x00010004 : Word).toNat % 2 ^ 8 ≠ 0x06 ∧
      (0x00010004 : Word).toNat / 2 ^ 16 ≠ 0) ∧
    (∀ w : Word, w = 0x00000001 ∨ w = 0x0000000A ∨ w = 0xFFFF0005 →
      0x01 ≤ w.toNat % 2 ^ 8 ∧ w.toNat % 2 ^ 8 ≤ 0x0A ∧ w.toNat / 2 ^ 8 % 2 ^ 8 = 0 ∧
        (w.toNat % 2 ^ 8 = 0x05 ∨ w.toNat % 2 ^ 8 = 0x06 ∨ w.toNat / 2 ^ 16 = 0)) := by
  refine ⟨by decide, by decide, by decide, by decide, ?_⟩
  rintro w (rfl | rfl | rfl) <;> decide

/-! ### The step and the protocol -/

/-- A running GCD with the engine's turn scheduled. -/
def gcdTurn : State := { accepted w32 .gcd { Regs.zero with a := 48, b := 18 } with schedule := [.engine] }

theorem witness_StepRunsTheLatchedCommand :
    (accepted w32 (.keygen 8) Regs.zero).eng.phase ≠ .idle ∧
    decode (accepted w32 (.keygen 8) Regs.zero).eng.word = .legal (.keygen 8) ∧
    (accepted w32 (.keygen 8) Regs.zero).schedule = [] ∧
    gcdTurn.eng.phase ≠ .idle ∧ decode gcdTurn.eng.word = .legal .gcd ∧ gcdTurn.schedule = .engine :: [] := by decide

theorem witness_AcceptedWordRunsNext : WellFormed (.genprime 65535) := by decide

theorem witness_CmdWriteAcceptsTheCommand :
    (State.resetWith w64).status.busy = false ∧ done32.status.busy = false ∧
    decode 0x00000001 = .legal .gcd ∧ decode 0x00010007 = .illegal .strayBitlen := by decide

theorem witness_EngineStepSearchesCommitsOrFails : gcdTurn.eng.phase ≠ .idle ∧
    (searchingQ w32 8 11 0 [13]).eng.phase ≠ .idle := by decide

theorem witness_inv_gcdTurn : Inv gcdTurn :=
  ⟨by decide, by intro r; cases r <;> decide, by decide, by decide, by decide, by decide, by decide,
    fun _ => ⟨⟨.gcd, by decide⟩, by decide, by decide⟩, by decide, by decide⟩

theorem witness_EightCommandsCompleteInOneStep :
    (Inv gcdTurn ∧ gcdTurn.status.busy = true ∧ decode gcdTurn.cmd = .legal .gcd ∧ searches .gcd = false ∧
      gcdTurn.schedule = .engine :: []) ∧
    (let s := accepted w32 .decryptCrt { Regs.zero with a := 0xFFFFFFFF }
     Inv s ∧ s.status.busy = true ∧ decode s.cmd = .legal .decryptCrt ∧ searches .decryptCrt = false ∧ s.schedule = []) :=
  ⟨⟨witness_inv_gcdTurn, by decide⟩, witness_inv_busy, by decide⟩

theorem witness_CommandsWriteOnlyTheirRegisters : ∃ t, exec .egcd gcdTurn = .next t ∧ .A ∉ writesOf .egcd ∧
    Instr.egcd ≠ .mrtest ∧ (∀ L, Instr.egcd ≠ .keygen L) ∧ (∀ L, Instr.egcd ≠ .genprime L) :=
  ⟨_, rfl, by decide, by decide, by simp, by simp⟩

theorem witness_CommandsReadOnlyTheirRegisters :
    ∀ r, r ∈ readsOf .gcd → Regs.get { Regs.zero with a := 48, b := 18, r := 7, x := 1 } r = gcdTurn.regs.get r := by decide

/-! ### extended_euclidean_gcd -/

theorem witness_GcdAlgorithm : (18 : Nat) ≠ 0 ∧ 2 ^ 32 - 1 < 2 ^ 32 ∧ 0 < 2 ^ 32 := by decide

theorem witness_EgcdAlgorithm : (15 : Nat) ≠ 0 ∧ egcdF 15 (35 % 15) = (5, 0, 1) ∧ egcdF 35 15 = (5, 1, -2) := by decide

theorem witness_EgcdCoefficientsReadBackExactly :
    0 < Nat.gcd 35 15 ∧ 0 < Nat.gcd 0 7 ∧ Inv gcdTurn ∧ ∃ t, exec .egcd gcdTurn = .next t :=
  ⟨by decide, by decide, witness_inv_gcdTurn, _, rfl⟩

theorem witness_ModinvIsTheUniqueInverse :
    (1 ≤ 1 ∧ gcdF 5 1 = 1) ∧ (1 ≤ 7 ∧ gcdF 3 7 = 1 ∧ 2 ≤ 7 ∧ 5 < 7 ∧ 3 * 5 % 7 = 1) := by decide

theorem witness_ModinvCommitsTheInverseOrFails :
    (accepted w32 .modinv { Regs.zero with a := 5 }).regs.get .M = 0 ∧
    (let s := accepted w32 .modinv { Regs.zero with m := 7 }
     s.regs.get .M ≠ 0 ∧ Nat.gcd (s.regs.get .A) (s.regs.get .M) ≠ 1) ∧
    (let s := accepted w32 .modinv { Regs.zero with a := 5, m := 1 }
     s.regs.get .M ≠ 0 ∧ Nat.gcd (s.regs.get .A) (s.regs.get .M) = 1) := by decide

/-! ### modular_exponentiation_engine -/

theorem witness_ModpowClosedForm : (1 ≤ 1) ∧ (1 ≤ 7 ∧ 1 ≤ 1) ∧ (1 < 2) := by decide

theorem witness_ModpowCommitsThePower :
    (accepted w32 .modpow Regs.zero).regs.get .M = 0 ∧ (accepted w32 .modpow { Regs.zero with m := 1 }).regs.get .M ≠ 0 := by
  decide

/-! ### rsa_crt_decrypt_accelerator -/

theorem witness_DirectPathsCommitThePower :
    (accepted w32 .encrypt Regs.zero).regs.get .N = 0 ∧ (accepted w32 .encrypt { Regs.zero with n := 1 }).regs.get .N ≠ 0 := by
  decide

theorem witness_UnitsWrapSilently : (accepted w32 .encrypt { Regs.zero with a := 185, e := 65537, n := 143 }).regs.get .N ≠ 0 := by
  decide

theorem witness_DecryptCrtRecombinesTheResidues :
    (∀ rs : Regs, rs = { Regs.zero with p := 1, q := 2, n := 1 } ∨ rs = { Regs.zero with p := 2, q := 1, n := 1 } ∨
        rs = { Regs.zero with p := 2, q := 2 } → rs.get .P ≤ 1 ∨ rs.get .Q ≤ 1 ∨ rs.get .N = 0) ∧
    (let rs : Regs := { Regs.zero with p := 2, q := 4, n := 1 }
     2 ≤ rs.get .P ∧ 2 ≤ rs.get .Q ∧ rs.get .N ≠ 0 ∧ Nat.gcd (rs.get .Q) (rs.get .P) ≠ 1) ∧
    (let rs : Regs := { Regs.zero with p := 2, q := 3, n := 1 }
     2 ≤ rs.get .P ∧ 2 ≤ rs.get .Q ∧ rs.get .N ≠ 0 ∧ Nat.gcd (rs.get .Q) (rs.get .P) = 1) := by
  refine ⟨?_, by decide, by decide⟩
  rintro rs (rfl | rfl | rfl) <;> decide

theorem witness_CrtPathEqualsDirectPath :
    let s := accepted w32 .decryptCrt { Regs.zero with a := 14, e := 3, d := 3, n := 15, p := 3, q := 5 }
    Nat.Prime 3 ∧ Nat.Prime 5 ∧ (3 : Nat) ≠ 5 ∧ (3 : Nat) ≠ 2 ∧ (5 : Nat) ≠ 2 ∧ s.regs.get .P = 3 ∧ s.regs.get .Q = 5 ∧
    s.regs.get .N = 3 * 5 ∧ Nat.gcd (s.regs.get .E) ((3 - 1) * (5 - 1)) = 1 ∧
    s.regs.get .D = modinvF (s.regs.get .E) ((3 - 1) * (5 - 1)) ∧ s.regs.get .A < 3 * 5 := by
  refine ⟨Nat.prime_three, Nat.prime_five, ?_⟩
  decide

theorem witness_DecryptUndoesEncrypt :
    let s := accepted w32 .encrypt { Regs.zero with a := 5, e := 1, d := 1, n := 6 }
    Nat.Prime 2 ∧ Nat.Prime 3 ∧ (2 : Nat) ≠ 3 ∧ s.regs.get .N = 2 * 3 ∧ 2 ≤ (2 - 1) * (3 - 1) ∧
    Nat.gcd (s.regs.get .E) ((2 - 1) * (3 - 1)) = 1 ∧
    s.regs.get .D = modinvF (s.regs.get .E) ((2 - 1) * (3 - 1)) ∧ s.regs.get .A < 2 * 3 := by
  refine ⟨Nat.prime_two, Nat.prime_three, ?_⟩
  decide

/-! ### miller_rabin_tester -/

theorem witness_DrawsRangeOverTheWholeRange : (2 ≤ 2 ∧ 2 ≤ 2 ∧ 2 ≤ 2) ∧ (0 ≤ 255 ∧ 0 ≤ 255 ∧ 255 ≤ 255) := by decide

theorem witness_MrtestAnswersWithoutDraws :
    (accepted w32 .mrtest { Regs.zero with a := 2 }).regs.get .A ≤ 2 ∧
    (accepted w32 .mrtest { Regs.zero with a := 4 }).regs.get .A % 2 = 0 ∧
    (accepted w32 .mrtest { Regs.zero with a := 9 } 0).rounds = 0 := by decide

theorem witness_MrtestPassesIffEveryWitnessPasses :
    3 ≤ (accepted w32 .mrtest { Regs.zero with a := 3 }).regs.get .A ∧
    (accepted w32 .mrtest { Regs.zero with a := 3 }).regs.get .A % 2 = 1 := by decide

/-- The least odd composite, with one round. -/
theorem witness_MrtestAdmitsBothAnswers :
    let s := accepted w32 .mrtest { Regs.zero with a := 9 } 1
    3 ≤ s.regs.get .A ∧ s.regs.get .A % 2 = 1 ∧ 9 ≤ s.regs.get .A ∧ ¬ (s.regs.get .A).Prime ∧ s.rounds ≠ 0 :=
  ⟨by decide, by decide, by decide, by show ¬ Nat.Prime 9; norm_num, by decide⟩

theorem witness_MrtestNeverRejectsAPrime : ((accepted w32 .mrtest { Regs.zero with a := 2 }).regs.get .A).Prime :=
  Nat.prime_two

theorem witness_GenprimeChecksThenSearches :
    ((accepted w32 (.genprime 33) Regs.zero).eng.checked = false ∧ (accepted w32 (.genprime 33) Regs.zero).cfg.W < 33) ∧
    ((accepted w32 (.genprime 32) Regs.zero).eng.checked = false ∧ 32 ≤ (accepted w32 (.genprime 32) Regs.zero).cfg.W) ∧
    (let s := searching w32 (.genprime 2) 40 [2]
     s.eng.checked = true ∧ s.entropy.draw 0 (2 ^ 2 - 1) = (2, ⟨[], 1⟩) ∧ mrF 2 s.rounds.toNat ⟨[], 1⟩ = (true, ⟨[], 1⟩)) ∧
    (let s := searching w32 (.genprime 2) 40 [1]
     s.eng.checked = true ∧ s.entropy.draw 0 (2 ^ 2 - 1) = (1, ⟨[], 1⟩) ∧ mrF 1 s.rounds.toNat ⟨[], 1⟩ = (false, ⟨[], 1⟩)) := by
  decide

/-- With the result 2, and with the greatest one, 3. -/
theorem witness_GenprimeResultIsAProbablePrime :
    (let s := searching w32 (.genprime 2) 40 [2]
     s.eng.checked = true ∧ seen (exec (.genprime 2) s) (fun t => (t.eng.checked, t.regs.r)) = some (false, 2)) ∧
    (let s := searching w32 (.genprime 2) 0 [3]
     s.eng.checked = true ∧ seen (exec (.genprime 2) s) (fun t => (t.eng.checked, t.regs.r)) = some (false, 3)) := by decide

/-- GENPRIME 0 and 1, KEYGEN 1 and 3. -/
theorem witness_DegenerateLengthsNeverComplete :
    (∀ bitlen, bitlen ≤ 1 → let s := accepted w32 (.genprime bitlen) Regs.zero 40 [2]
      Inv s ∧ s.schedule = [] ∧ s.eng.phase ≠ .idle ∧ (s.eng.op = 5 ∧ s.eng.bitlen.toNat ≤ 1)) ∧
    (∀ bitlen, 1 ≤ bitlen ∧ bitlen ≤ 3 → let s := accepted w32 (.keygen bitlen) Regs.zero
      Inv s ∧ s.schedule = [] ∧ s.eng.phase ≠ .idle ∧
        (s.eng.op = 6 ∧ 1 ≤ s.eng.bitlen.toNat ∧ s.eng.bitlen.toNat ≤ 3)) := by
  constructor
  · intro bitlen h
    refine ⟨witness_inv_genprime bitlen (by omega), ?_⟩
    interval_cases bitlen <;> decide
  · intro bitlen h
    refine ⟨witness_inv_keygen bitlen h, ?_⟩
    obtain ⟨h1, h3⟩ := h
    interval_cases bitlen <;> decide

/-- A search of GENPRIME, and both of KEYGEN's. -/
theorem witness_EverySearchMayRunForever :
    (let s := searching w32 (.genprime 32) 40 [0, 0, 0]
     s.schedule = [] ∧ (s.eng.phase = .run ∧ s.eng.checked = true ∧ s.eng.op = 5) ∧ s.entropy.queue = List.replicate 3 0) ∧
    (let s := searching w32 (.keygen 32) 40 [0, 0, 0]
     s.schedule = [] ∧ (s.eng.phase = .run ∧ s.eng.checked = true ∧ s.eng.op = 6) ∧ s.entropy.queue = List.replicate 3 0) ∧
    (let s := searchingQ w32 4 2 40 [0, 0, 0]
     s.schedule = [] ∧ (s.eng.phase = .kgQ ∧ s.eng.op = 6) ∧ s.entropy.queue = List.replicate 3 0) := by
  decide

/-- GENPRIME 2 with the draw 2 lined up: two steps complete it, so no infinite run stays busy. -/
theorem witness_SearchesCompleteUnderFairEntropy_genprime :
    let s := accepted w32 (.genprime 2) Regs.zero 40 [2]
    Inv s ∧ s.schedule = [] ∧ s.eng.phase = .run ∧ s.eng.op = 5 ∧ 2 ≤ s.eng.bitlen.toNat ∧
      s.eng.bitlen.toNat ≤ s.cfg.W ∧ FairEntropy s (2 ^ s.eng.bitlen.toNat - 1) := by
  refine ⟨witness_inv_genprime 2 (by omega), by decide, by decide, by decide, by decide, by decide, ?_⟩
  intro run h0 hstep hbusy
  have h1 := hstep 0
  have h2 := hstep 1
  have hb := hbusy 2
  rw [h0] at h1
  have e1 : run 1 = searching w32 (.genprime 2) 40 [2] := by
    have : step (accepted w32 (.genprime 2) Regs.zero 40 [2]) = .next (searching w32 (.genprime 2) 40 [2]) := rfl
    rw [this] at h1
    exact (Host.Outcome.next.inj h1).symm
  rw [e1] at h2
  have : seen (step (searching w32 (.genprime 2) 40 [2])) (fun t => t.status.busy) = some false := by decide
  rw [h2] at this
  simp [seen, hb] at this

/-! ### rsa_keygen_engine -/

theorem witness_inv_keygen_4 : Inv (accepted w32 (.keygen 4) Regs.zero 40 [2, 2]) ∧ Inv (searching w32 (.keygen 4) 40 [2]) := by
  constructor <;>
    exact ⟨by decide, by intro r; cases r <;> decide, by decide, by decide, by decide, by decide, by decide,
      fun _ => ⟨⟨_, rfl⟩, by decide, by decide⟩, by decide, by decide⟩

/-- KEYGEN 4 with the draws 2 and 2 lined up is done after three steps. -/
theorem keygen_4_is_done (k : Nat) :
    seen (runSteps (k + 3) (accepted w32 (.keygen 4) Regs.zero 40 [2, 2])) (fun t => t.status.busy) = some false := by
  have h1 : step (accepted w32 (.keygen 4) Regs.zero 40 [2, 2]) = .next (searching w32 (.keygen 4) 40 [2, 2]) := rfl
  have h2 : step (searching w32 (.keygen 4) 40 [2, 2]) =
      .next { searchingQ w32 4 2 40 [2] with entropy := { queue := [2], taken := 1 } } := rfl
  rw [runSteps_succ _ h1, runSteps_succ _ h2]
  have h3 : ∃ d, step { searchingQ w32 4 2 40 [2] with entropy := { queue := [2], taken := 1 } } = .next d ∧
      d.status.busy = false ∧ step d = .next d := ⟨_, rfl, rfl, rfl⟩
  obtain ⟨d, h3, hb, hd⟩ := h3
  rw [runSteps_succ _ h3]
  induction k with
  | zero => exact congrArg some hb
  | succ k ih => rw [runSteps_succ _ hd]; exact ih

theorem witness_SearchesCompleteUnderFairEntropy_keygen :
    let s := accepted w32 (.keygen 4) Regs.zero 40 [2, 2]
    Inv s ∧ s.schedule = [] ∧ s.eng.phase ≠ .idle ∧ s.eng.op = 6 ∧ 4 ≤ s.eng.bitlen.toNat ∧
      s.eng.bitlen.toNat ≤ s.cfg.W ∧
      ∀ n u, runSteps n s = .next u → FairEntropy u (2 ^ (s.eng.bitlen.toNat / 2) - 1) := by
  refine ⟨witness_inv_keygen_4.1, by decide, by decide, by decide, by decide, by decide, ?_⟩
  intro n u hu run h0 hstep hbusy
  have hrun : ∀ j, runSteps (n + j) (accepted w32 (.keygen 4) Regs.zero 40 [2, 2]) = .next (run j) := by
    intro j
    induction j with
    | zero => rw [h0]; exact hu
    | succ j ih => exact runSteps_snoc _ ih (hstep j)
  have hd := keygen_4_is_done n
  rw [hrun 3] at hd
  simp [seen, hbusy 3] at hd

theorem witness_KeygenChecksThenSearches :
    ((accepted w32 (.keygen 0) Regs.zero).eng.phase = .run ∧ (accepted w32 (.keygen 0) Regs.zero).eng.checked = false) ∧
    ((accepted w32 (.keygen 33) Regs.zero).eng.phase = .run ∧ (accepted w32 (.keygen 33) Regs.zero).eng.checked = false ∧
      (accepted w32 (.keygen 33) Regs.zero).cfg.W < 33) ∧
    ((accepted w32 (.keygen 32) Regs.zero).eng.phase = .run ∧ (accepted w32 (.keygen 32) Regs.zero).eng.checked = false ∧
      1 ≤ 32 ∧ 32 ≤ (accepted w32 (.keygen 32) Regs.zero).cfg.W) ∧
    (let s := searching w32 (.keygen 4) 40 [2]
     s.entropy.draw 0 (2 ^ (4 / 2) - 1) = (2, ⟨[], 1⟩) ∧ mrF 2 s.rounds.toNat ⟨[], 1⟩ = (true, ⟨[], 1⟩) ∧
       s.eng.phase = .run ∧ s.eng.checked = true) ∧
    (let s := searching w32 (.keygen 4) 40 [1]
     s.entropy.draw 0 (2 ^ (4 / 2) - 1) = (1, ⟨[], 1⟩) ∧ mrF 1 s.rounds.toNat ⟨[], 1⟩ = (false, ⟨[], 1⟩) ∧
       s.eng.phase = .run ∧ s.eng.checked = true) ∧
    (let s := searchingQ w32 4 2 40 [1]
     s.entropy.draw 0 (2 ^ (4 / 2) - 1) = (1, ⟨[], 1⟩) ∧ mrF 1 s.rounds.toNat ⟨[], 1⟩ = (false, ⟨[], 1⟩) ∧
       s.eng.phase = .kgQ) := by decide

theorem witness_KeygenCommitsTheKeyOrFails :
    (let s := searchingQ w64 40 917519 0 [1000003]
     s.eng.phase = .kgQ ∧ 1 ≤ s.eng.kgP ∧ s.entropy.draw 0 (2 ^ (40 / 2) - 1) = (1000003, ⟨[], 1⟩) ∧
       mrF 1000003 s.rounds.toNat ⟨[], 1⟩ = (true, ⟨[], 1⟩) ∧ Nat.gcd 65537 ((s.eng.kgP - 1) * (1000003 - 1)) ≠ 1) ∧
    (let s := searchingQ w32 4 2 40 [2]
     s.eng.phase = .kgQ ∧ 1 ≤ s.eng.kgP ∧ s.entropy.draw 0 (2 ^ (4 / 2) - 1) = (2, ⟨[], 1⟩) ∧
       mrF 2 s.rounds.toNat ⟨[], 1⟩ = (true, ⟨[], 1⟩) ∧ Nat.gcd 65537 ((s.eng.kgP - 1) * (2 - 1)) = 1) := by
  decide +kernel

/-- One q-attempt that ends in EXPNOTINV, and one that commits. -/
theorem witness_ExpnotinvIffADivisor :
    (Inv (searchingQ w64 40 917519 0 [1000003]) ∧ (searchingQ w64 40 917519 0 [1000003]).eng.phase = .kgQ ∧
      seen (exec (.keygen 40) (searchingQ w64 40 917519 0 [1000003])) (fun t => (t.eng.phase, t.status.errcode)) =
        some (.idle, .expnotinv)) ∧
    (Inv (searchingQ w32 8 11 0 [13]) ∧ (searchingQ w32 8 11 0 [13]).eng.phase = .kgQ ∧
      seen (exec (.keygen 8) (searchingQ w32 8 11 0 [13])) (fun t => (t.eng.phase, t.status.errcode)) =
        some (.idle, .none)) :=
  ⟨⟨witness_inv_keygen_q_expnotinv, rfl, by decide +kernel⟩, witness_inv_keygen_q, rfl, by decide +kernel⟩

theorem witness_KeygenResultHasTheKeyProperties :
    (let s := searching w32 (.keygen 4) 40 [2]
     Inv s ∧ s.eng.phase = .run ∧ seen (exec (.keygen s.eng.bitlen.toNat) s) (fun t => t.eng.phase) = some .kgQ) ∧
    (let s := searchingQ w32 8 11 0 [13]
     Inv s ∧ s.eng.phase = .kgQ ∧ seen (exec (.keygen s.eng.bitlen.toNat) s) (fun t => (t.eng.phase, t.status.err)) =
       some (.idle, false)) :=
  ⟨⟨witness_inv_keygen_4.2, rfl, by decide⟩, witness_inv_keygen_q, rfl, by decide +kernel⟩

/-! ### Reset and the whole machine -/

theorem witness_ResetValues :
    (∃ c, State.reset = State.resetWith c) ∧ ∃ s cut, resetStep none gcdTurn = resetStep cut s :=
  ⟨⟨_, rfl⟩, _, _, rfl⟩

theorem witness_ResetAbandonsTheCommand :
    { gcdTurn with schedule := [.reset none, .engine] }.schedule = .reset none :: [.engine] := rfl

theorem witness_ResetMeetsTheInvariant : w32.wf ∧ Config.wf { nw := 128, base := 0xFFFFC000 } := by decide

theorem witness_StepKeepsTheInvariant : Inv gcdTurn ∧ ∃ t, step gcdTurn = .next t := ⟨witness_inv_gcdTurn, _, rfl⟩

theorem witness_StepNeverStops : Inv (State.resetWith w64) ∧ Inv gcdTurn ∧ gcdTurn.status.busy = true :=
  ⟨witness_inv_idle.1, witness_inv_gcdTurn, rfl⟩

/-! ### The register window -/

theorem witness_BusErrorsAreExactlyTheListedCases :
    0x3FFF < 0x4000 ∧ (transact (.write (w64.base + 0x010) .word 0xF 0) { gcdTurn with cfg := w64 }).response =
      some (.busError .busy) := by decide

theorem witness_ReadsAndForeignTransactionsChangeNothing :
    0x3FFF < (State.resetWith w64).cfg.base ∧ (State.resetWith w64).cfg.base + 0x4000 ≤ 0x8000 := by decide

theorem witness_IdentificationRegisters :
    (State.resetWith w32).cfg.wf ∧ (State.resetWith { nw := 128, base := 0 }).cfg.wf := by decide

theorem witness_ControlRegisters : (State.resetWith w32).status.busy = false ∧ gcdTurn.status.busy = true := by decide

theorem witness_StatusReadsAndClears :
    BitVec.getLsbD (0x2 : Word) 1 = true ∧ BitVec.getLsbD (0x0F0D : Word) 1 = false ∧
    Inv (State.resetWith w64) ∧ (State.resetWith w64).status.err = false :=
  ⟨by decide, by decide, witness_inv_idle.1, rfl⟩

/-- W = 4096: the last word of Y is at the operand window's last offset. -/
theorem witness_OperandRegistersReadLittleEndian :
    Inv (State.resetWith { nw := 128, base := 0xFFFFC000 }) ∧
    (State.resetWith { nw := 128, base := 0xFFFFC000 }).status.busy = false ∧ regOffset .Y 127 = 0x25FC :=
  ⟨witness_inv_largest, rfl, rfl⟩

theorem witness_OperandWriteChangesOneWord :
    (State.resetWith w64).cfg.wf ∧ (State.resetWith w64).status.busy = false ∧ 1 < (State.resetWith w64).cfg.nw ∧
    (0x1200 : Nat) ≠ 0x1000 + 0x200 * OpReg.A.index + 4 * 1 ∧ (State.resetWith w64).regs.get .A < 2 ^ w64.W := by decide

/-- Both bounds of a literal's range. -/
theorem witness_LoadOperandProgramLoadsTheValue :
    Inv (State.resetWith w64) ∧ (State.resetWith w64).status.busy = false ∧
    (-(2 ^ (w64.W - 1) : Int) ≤ -(2 ^ 63) ∧ -(2 ^ 63) < (2 ^ w64.W : Int)) ∧
    (-(2 ^ (w64.W - 1) : Int) ≤ 2 ^ 64 - 1 ∧ 2 ^ 64 - 1 < (2 ^ w64.W : Int)) :=
  ⟨witness_inv_idle.1, rfl, by decide, by decide⟩

theorem witness_RunProgramWaitsForTheCommand :
    Inv (State.resetWith w64) ∧ (State.resetWith w64).status.busy = false ∧ searches .decryptCrt = false :=
  ⟨witness_inv_idle.1, rfl, rfl⟩

theorem witness_BusyInterlock : gcdTurn.status.busy = true ∧ isOperandOffset 0x1000 ∧ isOperandOffset 0x25FF := by
  refine ⟨rfl, ?_⟩
  unfold isOperandOffset
  decide

theorem witness_TransactionsDoNotDisturbACommand :
    Inv gcdTurn ∧ gcdTurn.status.busy = true ∧ decode gcdTurn.cmd = .legal .gcd := ⟨witness_inv_gcdTurn, by decide⟩

/-- A done block, and each of the three events that clear DONE. -/
theorem witness_DoneIsSticky :
    Inv done32 ∧ done32.status.done = true ∧
    seen (perform (.reset none) done32) (fun t => t.status.done) = some false ∧
    seen (perform (.bus (.write 0x014 .word 0xF 0x00000002)) done32) (fun t => t.status.done) = some false ∧
    seen (perform (.bus (.write 0x018 .word 0xF 0x00000002)) done32) (fun t => t.status.done) = some false :=
  ⟨witness_inv_done.1, by decide⟩

theorem witness_PrimeIsWrittenByMrtestOnly :
    (∃ t, exec .mrtest (accepted w32 .mrtest { Regs.zero with a := 2 }) = .next t) ∧
    (Instr.gcd ≠ .mrtest ∧ ∃ t, exec .gcd gcdTurn = .next t) ∧ done32.status.busy = false :=
  ⟨⟨_, rfl⟩, ⟨by decide, _, rfl⟩, rfl⟩

theorem witness_IrqFollowsDoneAndEnable :
    seen (exec .gcd gcdTurn) (fun t => t.status.done) = some true ∧ BitVec.getLsbD (0x2 : Word) 1 = true ∧
    done32.status.busy = false ∧ decode 0x00000004 = .legal .mrtest := by decide

/-! ### The end of a command and of a run -/

/-- A completion, an illegal word on an idle block, two ended runs with engine and reset entries left, and a bus error. -/
theorem witness_CommandsAndRunsEndAsDefined :
    (Inv gcdTurn ∧ gcdTurn.status.done = false ∧
      seen (perform .engine gcdTurn) (fun t => t.status.done) = some true) ∧
    (∃ t, EndsCommand .engine gcdTurn t) ∧
    (∃ t, EndsCommand (.bus (.write (w64.base + 0x014) .word 0xF 0x0000000B)) (State.resetWith w64) t) ∧
    (Inv { done32 with schedule := [.engine] } ∧ Ended { done32 with schedule := [.engine] } ∧
      .reset none ∉ { done32 with schedule := [.engine] }.schedule) ∧
    (Inv { done32 with schedule := [.reset none] } ∧ Ended { done32 with schedule := [.reset none] }) ∧
    (gcdTurn.faulted = false ∧
      seen (perform (.bus (.read 0x1000 .word)) gcdTurn) (fun t => (t.faulted, t.response)) =
        some (true, some (.busError .busy))) := by
  refine ⟨⟨witness_inv_gcdTurn, by decide⟩, ⟨_, rfl, by decide, by decide, .inl rfl⟩,
    ⟨_, rfl, by decide, by decide, .inr ⟨0x0000000B, .opUnassigned, rfl, by decide⟩⟩,
    ⟨inv_of_block witness_inv_done.1 rfl rfl rfl rfl rfl, by decide, by decide⟩,
    ⟨inv_of_block witness_inv_done.1 rfl rfl rfl rfl rfl, by decide⟩, by decide⟩

/-- A run whose host has a bus operation left, or whose command still runs, has not ended. -/
theorem test_not_ended :
    ¬ Ended { done32 with schedule := [.engine, .bus (.read 0x2000 .word)] } ∧ ¬ Ended gcdTurn ∧
    ¬ Ended { done32 with schedule := [.reset (some (.read 0x2000 .word))] } := by decide

end Sys2Proof.Tests
end

section
/-! The random draw of `00_scope.md`: its range and the values it can take. -/

namespace Sys2Proof.Machine

/-- A lined-up value is the raw value given next (assumption log 2). -/
@[simp] theorem entropy_next_cons (v : Nat) (rest : List Nat) (n : Nat) :
    Entropy.next { queue := v :: rest, taken := n } = v := rfl

/-- Rule R11: every value of the range is drawn by a source that has it lined up next. -/
theorem draw_cons_fst {lo hi v : Nat} (hlo : lo ≤ v) (hhi : v ≤ hi) (rest : List Nat) (n : Nat) :
    (Entropy.draw { queue := v :: rest, taken := n } lo hi).1 = v := by
  rw [draw_fst, entropy_next_cons, intoRange_self hlo hhi]

/-- Settles O26: `intoRange` lands in the range and fixes each of its values, and a draw advances the source by one. -/
theorem drawsRangeOverTheWholeRange : Obligations.DrawsRangeOverTheWholeRange := by
  intro lo hi hle
  constructor
  · intro en
    obtain ⟨hlo, hhi⟩ := intoRange_mem en.next hle
    exact ⟨hlo, hhi, advance_taken en, advance_queue en⟩
  · intro v hlo hhi rest n
    exact draw_cons_fst hlo hhi rest n

end Sys2Proof.Machine
end

section
/-! The invariant `Inv`, one lemma per operation of the block: reset, the three completions, a search step, acceptance,
acknowledgement and an operand write keep it. -/

namespace Sys2Proof.Machine

/-- The least width of rule R6: a register holds every 32-bit value. -/
theorem lt_two_pow_width {c : Config} (hc : c.wf) {v : Nat} (hv : v < 2 ^ 32) : v < 2 ^ c.W :=
  hv.trans_le (Nat.pow_le_pow_right (by decide) (show 32 ≤ 32 * c.nw by have := hc.1; omega))

/-- Rule R6: a register has a bit. -/
theorem one_le_width {c : Config} (hc : c.wf) : 1 ≤ c.W := by
  have := hc.1
  simp only [Config.W]
  omega

/-- The reset value of every operand register (rule R39). -/
@[simp] theorem zero_get (r : OpReg) : Regs.zero.get r = 0 := by cases r <;> rfl

/-- The invariant of a block whose engine is IDLE: what is left of it is about STATUS and the registers. -/
theorem inv_of_idle {s : State} (hc : s.cfg.wf) (hfits : ∀ r, s.regs.get r < 2 ^ s.cfg.W)
    (hbusy : s.status.busy = false) (hidle : s.eng.phase = .idle) (hchecked : s.eng.checked = false)
    (herr : s.status.err = true → s.status.done = true)
    (hcode : s.status.errcode = .none ↔ s.status.err = false)
    (hprime : s.status.prime = true → s.status.err = false) : Inv s where
  params := hc
  fits := hfits
  busyIff := by simp [hbusy, hidle]
  notBoth := by simp [hbusy]
  errDone := herr
  codeIff := hcode
  primeQuiet h := ⟨hbusy, hprime h⟩
  latched h := absurd hidle h
  checkedLen h := by simp [hchecked] at h
  holdsP h := by simp [hidle] at h

/-- The reset values of rule R39 meet the invariant, whatever stands around the block. -/
theorem inv_of_reset_values {s : State} (hc : s.cfg.wf) (hregs : s.regs = Regs.zero) (hstatus : s.status = Status.zero)
    (heng : s.eng = Engine.zero) : Inv s := by
  refine inv_of_idle hc ?_ ?_ ?_ ?_ ?_ ?_ ?_
  · intro r
    rw [hregs, zero_get]
    exact Nat.two_pow_pos _
  all_goals simp [hstatus, heng, Status.zero, Engine.zero]

/-- Held writes of values that fit leave every register within its bound (rule R22). -/
theorem apply_fits {bound : Nat} {ws : List (OpReg × Nat)} (hws : ∀ w ∈ ws, w.2 < bound) {rs : Regs}
    (hrs : ∀ r, rs.get r < bound) (r : OpReg) : (rs.apply ws).get r < bound := by
  induction ws generalizing rs with
  | nil => exact hrs r
  | cons w ws ih =>
    rw [apply_cons]
    refine ih (fun x hx => hws x (by simp [hx])) fun r' => ?_
    rw [get_set]
    split
    · exact hws w (by simp)
    · exact hrs r'

/-- The invariant does not see the entropy source (rule R38). -/
theorem inv_withEntropy {s : State} (hi : Inv s) (en : Entropy) : Inv { s with entropy := en } :=
  inv_of_block hi rfl rfl rfl rfl rfl

/-- A commit of values that fit keeps the invariant (rule R203). -/
theorem inv_complete {s : State} (hi : Inv s) {ws : List (OpReg × Nat)} (hws : ∀ w ∈ ws, w.2 < 2 ^ s.cfg.W) :
    Inv (complete ws s) :=
  inv_of_idle hi.params (apply_fits hws hi.fits) rfl rfl rfl (by simp [Status.committed]) (by simp [Status.committed])
    fun _ => rfl

/-- A commit of R alone keeps the invariant if the value fits. -/
theorem inv_complete_R {s : State} (hi : Inv s) {v : Nat} (hv : v < 2 ^ s.cfg.W) : Inv (complete [(.R, v)] s) :=
  inv_complete hi (by simpa using hv)

/-- MRTEST's commit keeps the invariant: its answer is one bit (rule R125). -/
theorem inv_completePrime {s : State} (hi : Inv s) (b : Bool) : Inv (completePrime b s) := by
  have hb : b.toNat < 2 ^ s.cfg.W := lt_two_pow_width hi.params (b.toNat_lt.trans (by decide))
  refine inv_of_idle hi.params (fun r => ?_) rfl rfl rfl ?_ ?_ fun _ => rfl
  · exact apply_fits (ws := [(.R, b.toNat)]) (by simpa using hb) hi.fits r
  all_goals simp [Status.committed]

/-- While a command runs PRIME is 0 (rules R35, R201). -/
theorem prime_of_running {s : State} (hi : Inv s) (hrun : s.eng.phase ≠ .idle) : s.status.prime = false := by
  by_contra hp
  have hbusy := (hi.primeQuiet (by simpa using hp)).1
  rw [hi.busyIff.mpr hrun] at hbusy
  cases hbusy

/-- An error completion of a running command keeps the invariant (rule R204). -/
theorem inv_raiseErr {s : State} (hi : Inv s) (hrun : s.eng.phase ≠ .idle) {code : ErrCode} (hcode : code ≠ .none) :
    Inv (raiseErr code s) :=
  inv_of_idle hi.params hi.fits rfl rfl rfl (by simp [Status.failed]) (by simp [Status.failed, hcode])
    (by simp [Status.failed, prime_of_running hi hrun])

/-- A step of a search, which goes on running with its latches kept and whatever it drew, keeps the invariant if the
engine's clauses hold of its new latches. -/
theorem inv_of_search {s : State} (hi : Inv s) (hrun : s.eng.phase ≠ .idle) {en : Entropy} {e : Engine}
    (hphase : e.phase ≠ .idle) (hop : e.op = s.eng.op) (hbl : e.bitlen = s.eng.bitlen)
    (hlen : (e.op = 5 ∨ e.op = 6) ∧ e.bitlen.toNat ≤ s.cfg.W ∧ (e.op = 6 → e.bitlen ≠ 0))
    (hkgP : e.phase = .kgQ → e.op = 6 ∧ e.checked = true ∧ e.kgP < 2 ^ (e.bitlen.toNat / 2) ∧
      (e.kgP = 2 ∨ (3 ≤ e.kgP ∧ e.kgP % 2 = 1))) : Inv { s with entropy := en, eng := e } where
  params := hi.params
  fits := hi.fits
  busyIff := ⟨fun _ => hphase, fun _ => hi.busyIff.mpr hrun⟩
  notBoth := hi.notBoth
  errDone := hi.errDone
  codeIff := hi.codeIff
  primeQuiet := hi.primeQuiet
  latched _ := by
    obtain ⟨hlegal, hlop, hlbl⟩ := hi.latched hrun
    exact ⟨hlegal, hop.trans hlop, hbl.trans hlbl⟩
  checkedLen _ := ⟨hphase, hlen⟩
  holdsP := hkgP

/-- While BUSY = 0 the engine is IDLE (rule R37). -/
theorem idle_of_not_busy {s : State} (hi : Inv s) (hbusy : s.status.busy = false) : s.eng.phase = .idle := by
  by_contra hrun
  simp [hi.busyIff.mpr hrun] at hbusy

/-- Past the BITLEN check a command runs, so an IDLE engine has not taken it (assumption log 3). -/
theorem unchecked_of_idle {s : State} (hi : Inv s) (hidle : s.eng.phase = .idle) : s.eng.checked = false := by
  by_contra hck
  exact (hi.checkedLen (by simpa using hck)).1 hidle

/-- Acceptance of any word by an idle block keeps the invariant (rules R201, R202). -/
theorem inv_acceptCommand {s : State} (hi : Inv s) (hbusy : s.status.busy = false) (w : Word) :
    Inv (acceptCommand w s) := by
  have hidle := idle_of_not_busy hi hbusy
  have hchecked := unchecked_of_idle hi hidle
  rcases acceptCommand_cases w s with ⟨why, _, h⟩ | ⟨i, hd, h⟩ <;> rw [h]
  · refine inv_of_idle hi.params hi.fits hbusy hidle hchecked ?_ ?_ ?_ <;>
      simp [Status.refusedWord, Status.cleared]
  · exact
      { params := hi.params
        fits := hi.fits
        busyIff := by simp [Status.started]
        notBoth := by simp [Status.started, Status.cleared]
        errDone := by simp [Status.started, Status.cleared]
        codeIff := by simp [Status.started, Status.cleared]
        primeQuiet := by simp [Status.started, Status.cleared]
        latched := fun _ => ⟨⟨i, hd⟩, rfl, rfl⟩
        checkedLen := by simp
        holdsP := by simp }

/-- The acknowledgement keeps the invariant: it clears DONE and ERR together (rules R30, R211). -/
theorem inv_acknowledge {s : State} (hi : Inv s) : Inv (acknowledge s) where
  params := hi.params
  fits := hi.fits
  busyIff := hi.busyIff
  notBoth := by simp [Status.acknowledged]
  errDone := by simp [Status.acknowledged]
  codeIff := by simp [Status.acknowledged]
  primeQuiet h := ⟨(hi.primeQuiet h).1, rfl⟩
  latched := hi.latched
  checkedLen := hi.checkedLen
  holdsP := hi.holdsP

/-- A register write of a value that fits keeps the invariant. -/
theorem inv_withReg {s : State} (hi : Inv s) (r : OpReg) {v : Nat} (hv : v < 2 ^ s.cfg.W) :
    Inv { s with regs := s.regs.set r v } :=
  { hi with fits := apply_fits (ws := [(r, v)]) (by simpa using hv) hi.fits }

end Sys2Proof.Machine
end

section
/-! Every engine step of a running command keeps the invariant: each command's result fits W bits. -/

namespace Sys2Proof.Machine

/-- A greatest common divisor fits the width of its operands. -/
theorem gcd_lt {a b bound : Nat} (ha : a < bound) (hb : b < bound) : Nat.gcd a b < bound := by
  rcases Nat.eq_zero_or_pos a with rfl | hpos
  · rwa [Nat.gcd_zero_left]
  · exact (Nat.gcd_le_left b hpos).trans_lt ha

/-- ENCRYPT's and DECRYPT's step keeps the invariant. -/
theorem unitDirect_keeps_inv {s : State} (hi : Inv s) (hrun : s.eng.phase ≠ .idle) (key : OpReg) :
    Inv (unitDirect key s) := by
  unfold unitDirect
  split
  · exact inv_raiseErr hi hrun (by decide)
  · exact inv_complete_R hi (modpowF_lt_two_pow _ _ (by omega) (hi.fits .N) (one_le_width hi.params))

/-- MODINV's step keeps the invariant: the inverse is below M. -/
theorem execModinv_keeps_inv {s t : State} (hi : Inv s) (hrun : s.eng.phase ≠ .idle)
    (h : execModinv s = .next t) : Inv t := by
  unfold execModinv at h
  split at h
  · cases h; exact inv_raiseErr hi hrun (by decide)
  · split at h
    · cases h; exact inv_raiseErr hi hrun (by decide)
    · cases h; exact inv_complete_R hi ((modinvF_lt _ (by omega)).trans (hi.fits .M))

/-- MODPOW's step keeps the invariant: the power is below M, or 1. -/
theorem execModpow_keeps_inv {s t : State} (hi : Inv s) (hrun : s.eng.phase ≠ .idle)
    (h : execModpow s = .next t) : Inv t := by
  unfold execModpow at h
  split at h
  · cases h; exact inv_raiseErr hi hrun (by decide)
  · cases h
    exact inv_complete_R hi (modpowF_lt_two_pow _ _ (by omega) (hi.fits .M) (one_le_width hi.params))

/-- DECRYPT_CRT's step keeps the invariant: the result is below N. -/
theorem execDecryptCrt_keeps_inv {s t : State} (hi : Inv s) (hrun : s.eng.phase ≠ .idle)
    (h : execDecryptCrt s = .next t) : Inv t := by
  rcases execDecryptCrt_cases s with ⟨_, h'⟩ | ⟨_, _, _, _, h'⟩ | ⟨_, _, hn, _, h'⟩ <;>
    rw [h'] at h <;> cases h
  · exact inv_raiseErr hi hrun (by decide)
  · exact inv_raiseErr hi hrun (by decide)
  · exact inv_complete_R hi ((crtF_lt _ _ _ _ (by omega)).trans (hi.fits .N))

/-- GENPRIME's step keeps the invariant: a candidate lies below 2^BITLEN, and BITLEN ≤ W past the check. -/
theorem execGenprime_keeps_inv {s t : State} {L : Nat} (hi : Inv s) (hrun : s.eng.phase ≠ .idle)
    (hop : s.eng.op = 5) (hL : s.eng.bitlen.toNat = L) (h : execGenprime L s = .next t) : Inv t := by
  subst hL
  rcases execGenprime_cases _ s with ⟨_, _, h'⟩ | ⟨_, hle, h'⟩ | ⟨hck, _, h'⟩ | ⟨_, _, h'⟩ <;>
    rw [h'] at h <;> cases h
  · exact inv_raiseErr hi hrun (by decide)
  · refine inv_of_search hi hrun hrun rfl rfl ⟨.inl hop, hle, ?_⟩ ?_
    · simp [hop]
    · intro hq
      have hop6 := (hi.holdsP hq).1
      simp [hop] at hop6
  · obtain ⟨_, _, hle, _⟩ := hi.checkedLen hck
    exact inv_complete_R (inv_withEntropy hi _)
      ((attempt_candidate_lt _ _ _).trans_le (Nat.pow_le_pow_right (by decide) (hle)))
  · exact inv_withEntropy hi _

/-- KEYGEN's five results fit: N is a product of two numbers of half the width, P, Q and D are not above it. -/
theorem keygenFinish_keeps_inv {s : State} {p q half : Nat} (hi : Inv s) (hrun : s.eng.phase ≠ .idle)
    (hhalf : half + half ≤ s.cfg.W) (hp : p < 2 ^ half) (hq : q < 2 ^ half) : Inv (keygenFinish p q s) := by
  have hW : 2 ^ half * 2 ^ half ≤ 2 ^ s.cfg.W := by
    rw [← pow_add]; exact Nat.pow_le_pow_right (by decide) hhalf
  have hle : 2 ^ half ≤ 2 ^ s.cfg.W := Nat.pow_le_pow_right (by decide) (by omega)
  rcases keygenFinish_cases p q s with ⟨_, h⟩ | ⟨hg, h⟩ <;> rw [h]
  · exact inv_raiseErr hi hrun (by decide)
  · have hphi : 0 < (p - 1) * (q - 1) := by
      by_contra h0
      simp [show (p - 1) * (q - 1) = 0 by omega] at hg
    have hphi_le : (p - 1) * (q - 1) ≤ p * q := Nat.mul_le_mul (Nat.sub_le _ _) (Nat.sub_le _ _)
    have hN : p * q < 2 ^ s.cfg.W := (Nat.mul_lt_mul'' hp hq).trans_le hW
    have hD := modinvF_lt 65537 hphi
    refine inv_complete hi ?_
    simp only [List.forall_mem_cons, List.not_mem_nil, false_imp_iff, implies_true, and_true]
    exact ⟨lt_two_pow_width hi.params (by decide), hN, by omega, by omega, by omega⟩

/-- KEYGEN's step keeps the invariant: past the check BITLEN is admitted, and KG_Q holds the candidate that passed. -/
theorem execKeygen_keeps_inv {s t : State} {L : Nat} (hi : Inv s) (hrun : s.eng.phase ≠ .idle)
    (hop : s.eng.op = 6) (hL : s.eng.bitlen.toNat = L) (h : execKeygen L s = .next t) : Inv t := by
  subst hL
  rcases execKeygen_cases _ s with
    ⟨_, _, _, h'⟩ | ⟨_, _, hpos, hle, h'⟩ | ⟨_, hck, hpass, h'⟩ | ⟨hq, _, h'⟩ | ⟨_, _, h'⟩ <;>
    rw [h'] at h <;> cases h
  · exact inv_raiseErr hi hrun (by decide)
  · refine inv_of_search hi hrun (by simp) rfl rfl ⟨.inr hop, hle, fun _ hzero => ?_⟩ (by simp)
    rw [hzero] at hpos
    exact absurd hpos (by decide)
  · obtain ⟨_, hlen⟩ := hi.checkedLen hck
    refine inv_of_search hi hrun (by simp) rfl rfl hlen fun _ => ?_
    exact ⟨hop, hck, attempt_candidate_lt _ s.rounds.toNat s.entropy, attempt_passed hpass⟩
  · obtain ⟨_, hck, hkgP, _⟩ := hi.holdsP hq
    obtain ⟨_, _, hle, _⟩ := hi.checkedLen hck
    exact keygenFinish_keeps_inv (inv_withEntropy hi _) hrun (half := s.eng.bitlen.toNat / 2)
      (show _ + _ ≤ s.cfg.W by omega)
      (hkgP) (attempt_candidate_lt _ _ _)
  · exact inv_withEntropy hi _

/-- The engine step of a running command, the one its latches hold, keeps the invariant. -/
theorem exec_keeps_inv {i : Instr} {s t : State} (hi : Inv s) (hrun : s.eng.phase ≠ .idle)
    (hop : opcode i = s.eng.op.toNat) (hbl : bitlenOf i = s.eng.bitlen.toNat) (h : exec i s = .next t) : Inv t := by
  cases i with
  | gcd =>
    cases h
    exact inv_complete_R hi (by rw [gcdF_eq_gcd]; exact gcd_lt (hi.fits .A) (hi.fits .B))
  | egcd =>
    cases h
    refine inv_complete hi ?_
    simp only [List.forall_mem_cons, List.not_mem_nil, false_imp_iff, implies_true, and_true, egcdF_fst]
    exact ⟨gcd_lt (hi.fits .A) (hi.fits .B), tcW_lt _ _, tcW_lt _ _⟩
  | modinv => exact execModinv_keeps_inv hi hrun h
  | mrtest => cases h; exact inv_completePrime (inv_withEntropy hi _) _
  | genprime L => exact execGenprime_keeps_inv hi hrun (BitVec.eq_of_toNat_eq hop.symm) hbl.symm h
  | keygen L => exact execKeygen_keeps_inv hi hrun (BitVec.eq_of_toNat_eq hop.symm) hbl.symm h
  | modpow => exact execModpow_keeps_inv hi hrun h
  | encrypt => cases h; exact unitDirect_keeps_inv hi hrun .E
  | decrypt => cases h; exact unitDirect_keeps_inv hi hrun .D
  | decryptCrt => exact execDecryptCrt_keeps_inv hi hrun h

end Sys2Proof.Machine
end

section
/-! The invariant of the whole machine: every entry of the schedule keeps it, and it holds at reset, whose values are
rule R39's. -/

namespace Sys2Proof.Machine

/-- An engine step keeps the invariant, whether or not a command runs. -/
theorem engineStep_keeps_inv {s t : State} (hi : Inv s) (h : engineStep s = .next t) : Inv t := by
  by_cases hidle : s.eng.phase = .idle
  · rw [engineStep_idle hidle] at h
    cases h
    exact hi
  · obtain ⟨i, _, hexec, hop, hbl⟩ := engineStep_cmd hi hidle
    exact exec_keeps_inv hi hidle hop hbl (hexec ▸ h)

/-- A word write that is answered keeps the invariant. -/
theorem memWrite_keeps_inv {off : Nat} {data : Word} {s u : State} (hi : Inv s) (h : memWrite off data s = .ok u) :
    Inv u := by
  rcases memWrite_cases off data s with
    ⟨_, e⟩ | e | ⟨_, e⟩ | ⟨hbusy, _, e⟩ | ⟨_, _, e⟩ | ⟨_, _, e⟩ | ⟨r, j, _, hj, e⟩ <;>
    rw [e] at h <;> cases h
  · exact inv_of_block hi rfl rfl rfl rfl rfl
  · exact inv_of_block hi rfl rfl rfl rfl rfl
  · exact inv_acceptCommand hi hbusy data
  · exact inv_acknowledge hi
  · exact hi
  · exact inv_withReg hi r (putWord_lt (hi.fits r) hj data)

/-- A transaction keeps the invariant, answered or not. -/
theorem transact_keeps_inv {s : State} (hi : Inv s) (t : Txn) : Inv (transact t s) := by
  rcases transact_shape t s with ⟨_, _, h⟩ | ⟨_, _, u, _, hm, h⟩ <;> rw [h]
  · exact inv_of_block hi rfl rfl rfl rfl rfl
  · exact inv_of_block (memWrite_keeps_inv hi hm) rfl rfl rfl rfl rfl

/-- Every entry of the schedule keeps the invariant. -/
theorem perform_keeps_inv {e : Event} {s t : State} (hi : Inv s) (h : perform e s = .next t) : Inv t := by
  cases e with
  | bus x => cases h; exact transact_keeps_inv hi x
  | poll addr mask value =>
    cases h
    obtain ⟨_, _, _, hshape⟩ := pollStep_shape addr mask value s
    rw [hshape]
    exact inv_of_block hi rfl rfl rfl rfl rfl
  | engine => exact engineStep_keeps_inv hi h
  | reset cut =>
    cases h
    obtain ⟨_, hshape⟩ := resetStep_shape cut s
    rw [hshape]
    exact inv_of_reset_values hi.params rfl rfl rfl

/-- Settles O44: the next entry of the schedule, or the engine's step when there is none, keeps the invariant. -/
theorem stepKeepsTheInvariant : Obligations.StepKeepsTheInvariant := by
  intro s t hi h
  cases hs : s.schedule with
  | nil => exact engineStep_keeps_inv hi (step_nil hs ▸ h)
  | cons e rest =>
    rw [step_cons hs] at h
    exact perform_keeps_inv (s := { s with schedule := rest }) (inv_of_block hi rfl rfl rfl rfl rfl) h

/-- Settles O43: the reset values meet the invariant for every admitted W and BASE, `Config.platform` among them. -/
theorem resetMeetsTheInvariant : Obligations.ResetMeetsTheInvariant :=
  have hreset (c : Config) (hc : c.wf) : Inv (State.resetWith c) := inv_of_reset_values hc rfl rfl rfl
  ⟨hreset, hreset Config.platform (by decide)⟩

/-- Settles O41: both the start state and what a reset event leaves hold the values of `State.resetWith`. -/
theorem resetValues : Obligations.ResetValues := by
  rintro t (⟨c, rfl⟩ | ⟨s, cut, rfl⟩)
  · exact ⟨zero_get, rfl, rfl, rfl, rfl, rfl, rfl, rfl, rfl, rfl, rfl, rfl, rfl⟩
  · obtain ⟨_, hshape⟩ := resetStep_shape cut s
    rw [hshape]
    exact ⟨zero_get, rfl, rfl, rfl, rfl, rfl, rfl, rfl, rfl, rfl, rfl, rfl, rfl⟩

end Sys2Proof.Machine
end

section
/-! The seven control registers: what a word read of each answers and what a word write of each does (`10_state.md`
rules R27 to R31), and the bits of STATUS. -/

namespace Sys2Proof.Machine

@[simp] theorem memRead_id (s : State) : memRead 0x000 s = .ok idValue := rfl
@[simp] theorem memRead_version (s : State) : memRead 0x004 s = .ok versionValue := rfl
@[simp] theorem memRead_param (s : State) : memRead 0x008 s = .ok (paramValue s.cfg) := rfl
@[simp] theorem memRead_ctrl (s : State) : memRead 0x00C s = .ok (BitVec.ofNat 32 s.irqEn.toNat) := rfl
@[simp] theorem memRead_cfg (s : State) : memRead 0x010 s = .ok (s.rounds.setWidth 32) := rfl
@[simp] theorem memRead_cmd (s : State) : memRead 0x014 s = .ok s.cmd := rfl
@[simp] theorem memRead_status (s : State) : memRead 0x018 s = .ok s.status.word := rfl

@[simp] theorem memWrite_id (data : Word) (s : State) : memWrite 0x000 data s = .busError .readOnly := rfl
@[simp] theorem memWrite_version (data : Word) (s : State) : memWrite 0x004 data s = .busError .readOnly := rfl
@[simp] theorem memWrite_param (data : Word) (s : State) : memWrite 0x008 data s = .busError .readOnly := rfl
@[simp] theorem memWrite_ctrl (data : Word) (s : State) :
    memWrite 0x00C data s = .ok { s with irqEn := data.getLsbD 0 } := rfl
theorem memWrite_cfg (data : Word) (s : State) :
    memWrite 0x010 data s = if s.status.busy then .busError .busy else .ok { s with rounds := data.setWidth 8 } := rfl
theorem memWrite_cmd (data : Word) (s : State) :
    memWrite 0x014 data s = if s.status.busy then .busError .busy else .ok (acceptCommand data s) := rfl
theorem memWrite_status (data : Word) (s : State) :
    memWrite 0x018 data s = .ok (if data.getLsbD 1 then acknowledge s else s) := rfl

/-- CFG is written while the block is idle (rule R28). -/
theorem memWrite_cfg_idle {s : State} (hbusy : s.status.busy = false) (data : Word) :
    memWrite 0x010 data s = .ok { s with rounds := data.setWidth 8 } := by simp [memWrite_cfg, hbusy]

/-- CMD is written, and its word accepted, while the block is idle (rule R29). -/
theorem memWrite_cmd_idle {s : State} (hbusy : s.status.busy = false) (data : Word) :
    memWrite 0x014 data s = .ok (acceptCommand data s) := by simp [memWrite_cmd, hbusy]

/-- A STATUS write with data[1] = 1 is the acknowledgement (rule R30). -/
theorem memWrite_status_ack {data : Word} (h : data.getLsbD 1 = true) (s : State) :
    memWrite 0x018 data s = .ok (acknowledge s) := by simp [memWrite_status, h]

/-- PARAM holds W: 4096 fits a bus word (rules R6, R31). -/
theorem paramValue_toNat {c : Config} (hc : c.wf) : (paramValue c).toNat = c.W := by
  obtain ⟨_, hmax, _⟩ := hc
  simp only [paramValue, BitVec.toNat_ofNat, Config.W]
  omega

/-- Every code is one of rule R205's six. -/
theorem code_le (c : ErrCode) : c.code ≤ 5 := by cases c <;> decide

/-- What each field of STATUS adds at most (rule R30). -/
theorem status_bounds (st : Status) : st.busy.toNat ≤ 1 ∧ st.done.toNat ≤ 1 ∧ st.err.toNat ≤ 1 ∧ st.prime.toNat ≤ 1 ∧
    st.errcode.code ≤ 5 :=
  ⟨st.busy.toNat_le, st.done.toNat_le, st.err.toNat_le, st.prime.toNat_le, code_le st.errcode⟩

/-- STATUS as a number is rule R55's sum: it needs no more than twelve bits. -/
theorem statusWord_toNat (st : Status) : st.word.toNat =
    st.busy.toNat + 2 * st.done.toNat + 4 * st.err.toNat + 8 * st.prime.toNat + 256 * st.errcode.code := by
  obtain ⟨hb, hd, he, hp, hc⟩ := status_bounds st
  rw [Status.word, BitVec.toNat_ofNat]
  exact Nat.mod_eq_of_lt (by omega)

/-- A bit of a word, from the word's value. -/
theorem getLsbD_of_div_mod {w : Word} {k : Nat} {b : Bool} (h : w.toNat / 2 ^ k % 2 = b.toNat) : w.getLsbD k = b := by
  rw [← BitVec.testBit_toNat, Nat.testBit_eq_decide_div_mod_eq, h]
  cases b <;> rfl

/-- The fields of STATUS in their bits, and the reserved bits 0 (rule R30). -/
theorem statusWord_fields (st : Status) :
    st.word.getLsbD 0 = st.busy ∧ st.word.getLsbD 1 = st.done ∧ st.word.getLsbD 2 = st.err ∧
    st.word.getLsbD 3 = st.prime ∧ st.word.toNat / 2 ^ 4 % 2 ^ 4 = 0 ∧
    st.word.toNat / 2 ^ 8 % 2 ^ 4 = st.errcode.code ∧ st.word.toNat / 2 ^ 12 = 0 := by
  have hw := statusWord_toNat st
  obtain ⟨hb, hd, he, hp, hc⟩ := status_bounds st
  refine ⟨getLsbD_of_div_mod ?_, getLsbD_of_div_mod ?_, getLsbD_of_div_mod ?_, getLsbD_of_div_mod ?_, ?_, ?_, ?_⟩
  all_goals omega

/-- Settles O50: the bits are rule R55's sum read back, and a STATUS write acknowledges or does nothing. -/
theorem statusReadsAndClears : Obligations.StatusReadsAndClears := by
  refine ⟨fun s => ⟨_, memRead_status s, statusWord_fields s.status⟩, ?_, ?_, ?_, fun c => rfl⟩
  · intro s data hack
    exact memWrite_status_ack hack s
  · intro s data hack
    rw [memWrite_status, hack]
    rfl
  · intro s hi herr
    rw [hi.codeIff.mpr herr]
    rfl

/-- Settles O48: the three constants; PARAM is W because W fits the word. -/
theorem identificationRegisters : Obligations.IdentificationRegisters := by
  intro s hc
  exact ⟨memRead_id s, memRead_version s, ⟨_, memRead_param s, paramValue_toNat hc⟩,
    fun data => ⟨memWrite_id data s, memWrite_version data s, memWrite_param data s⟩⟩

/-- Settles O49: a read of each register answers its field, and BUSY alone decides what a write of CFG or CMD does. -/
theorem controlRegisters : Obligations.ControlRegisters := by
  intro s data
  refine ⟨memWrite_ctrl data s, ⟨_, memRead_ctrl s, ?_⟩, ⟨_, memRead_cfg s, ?_⟩, memRead_cmd s, ?_, ?_, ?_⟩
  · cases s.irqEn <;> rfl
  · exact BitVec.toNat_setWidth_of_le (by decide)
  · intro hbusy
    exact ⟨data.setWidth 8, BitVec.toNat_setWidth 8 data, memWrite_cfg_idle hbusy data⟩
  · intro hbusy
    exact memWrite_cmd_idle hbusy data
  · intro hbusy
    simp [memWrite_cfg, memWrite_cmd, hbusy]

end Sys2Proof.Machine
end

section
/-! What changes DONE, PRIME and `irq` (`10_state.md` rules R33, R35, R36). -/

namespace Sys2Proof.Machine

/-- A transaction changes STATUS only by accepting a command word or by acknowledging. -/
theorem transact_status_cases (t : Txn) (s : State) :
    (transact t s).status = s.status ∨
    (∃ w, t = .write (s.cfg.base + 0x014) .word 0xF w ∧ s.status.busy = false ∧
      (transact t s).status = (acceptCommand w s).status) ∨
    (∃ w, t = .write (s.cfg.base + 0x018) .word 0xF w ∧ w.getLsbD 1 = true ∧
      (transact t s).status = s.status.acknowledged) := by
  rcases transact_shape t s with ⟨_, _, h⟩ | ⟨off, data, u, ht, hm, h⟩
  · exact .inl (by rw [h])
  · rw [h]
    rcases memWrite_cases off data s with
      ⟨_, e⟩ | e | ⟨_, e⟩ | ⟨hbusy, rfl, e⟩ | ⟨rfl, hack, e⟩ | ⟨_, _, e⟩ | ⟨_, _, _, _, e⟩ <;>
      rw [e] at hm <;> cases hm
    · exact .inl rfl
    · exact .inl rfl
    · exact .inr (.inl ⟨data, ht, hbusy, rfl⟩)
    · exact .inr (.inr ⟨data, ht, hack, rfl⟩)
    · exact .inl rfl
    · exact .inl rfl

/-- Acceptance of an illegal word completes it (rule R202). -/
theorem acceptCommand_status_illegal {w : Word} {why : Illegal} (h : decode w = .illegal why) (s : State) :
    (acceptCommand w s).status = s.status.refusedWord := by rw [acceptCommand_illegal h]

/-- Acceptance of a legal word starts it (rule R201). -/
theorem acceptCommand_status_legal {w : Word} {i : Instr} (h : decode w = .legal i) (s : State) :
    (acceptCommand w s).status = s.status.started := by rw [acceptCommand_legal h]

/-- Acceptance of any word clears PRIME (rules R35, R201). -/
@[simp] theorem acceptCommand_prime (w : Word) (s : State) : (acceptCommand w s).status.prime = false := by
  rcases acceptCommand_cases w s with ⟨_, _, h⟩ | ⟨_, _, h⟩ <;> rw [h] <;> rfl

/-- A word write inside the window that is answered (rules R57, R60). -/
theorem transact_write_ok {s u : State} {off : Nat} {data : Word} (hoff : off < 0x4000)
    (h : memWrite off data s = .ok u) :
    transact (.write (s.cfg.base + off) .word 0xF data) s = { u with response := some .written } := by
  simp [transact, offsetOf_base s.cfg hoff, answerWrite, h]

/-- A reset leaves STATUS all 0 (rule R39). -/
@[simp] theorem resetStep_status (cut : Option Txn) (s : State) : (resetStep cut s).status = Status.zero := by
  obtain ⟨_, h⟩ := resetStep_shape cut s
  rw [h]
  rfl

/-- A completed block is idle, so its engine has no step (rules R33, R200). -/
theorem engineStep_of_done {s : State} (hi : Inv s) (hdone : s.status.done = true) : engineStep s = .next s := by
  have hbusy : s.status.busy = false := by
    by_contra hb
    exact hi.notBoth ⟨by simpa using hb, hdone⟩
  exact engineStep_idle (idle_of_not_busy hi hbusy)

/-- Settles O57: an engine step of a done block changes nothing, a poll changes nothing of the block, and of the two
transactions that change STATUS, acceptance of an illegal word sets DONE. -/
theorem doneIsSticky : Obligations.DoneIsSticky := by
  intro s t e hi hdone h hclear
  have hne : t.status ≠ s.status := fun heq => by simp [heq, hdone] at hclear
  cases e with
  | bus x =>
    cases h
    rcases transact_status_cases x s with hkeep | ⟨w, rfl, _, hacc⟩ | ⟨w, rfl, hack, _⟩
    · exact absurd hkeep hne
    · cases hd : decode w with
      | legal i => exact .inr (.inl ⟨w, i, rfl, hd⟩)
      | illegal why =>
        rw [hacc, acceptCommand_status_illegal hd] at hclear
        cases hclear
    · exact .inr (.inr ⟨w, rfl, hack⟩)
  | poll addr mask value =>
    cases h
    obtain ⟨_, _, _, hshape⟩ := pollStep_shape addr mask value s
    exact absurd (by rw [hshape]) hne
  | engine =>
    rw [perform, engineStep_of_done hi hdone] at h
    cases h
    exact absurd rfl hne
  | reset cut => exact .inl ⟨cut, rfl⟩

/-- No command but MRTEST writes PRIME (rules R35, R203, R204). -/
theorem exec_prime {i : Instr} {s t : State} (hne : i ≠ .mrtest) (h : exec i s = .next t) :
    t.status.prime = s.status.prime := by
  obtain ⟨u, hu, hshape⟩ := exec_shapes i s
  rw [hu] at h
  cases h
  rcases hshape with ⟨_, _, rfl, _⟩ | ⟨_, _, rfl, _⟩ | ⟨_, _, hmr, _⟩ | ⟨_, _, rfl, _⟩
  · rfl
  · rfl
  · exact absurd hmr hne
  · rfl

/-- No command writes CTRL (rule R27). -/
theorem exec_irqEn {i : Instr} {s t : State} (h : exec i s = .next t) : t.irqEn = s.irqEn := by
  obtain ⟨u, hu, hshape⟩ := exec_shapes i s
  rw [hu] at h
  cases h
  rcases hshape with ⟨_, _, rfl, _⟩ | ⟨_, _, rfl, _⟩ | ⟨_, _, _, rfl⟩ | ⟨_, _, rfl, _⟩ <;> rfl

/-- Settles O58: MRTEST's commit carries its answer, no other shape of an engine step has PRIME in it, and of the
transactions only acceptance touches it. -/
theorem primeIsWrittenByMrtestOnly : Obligations.PrimeIsWrittenByMrtestOnly := by
  refine ⟨?_, fun i s t => exec_prime, ?_, ?_, ?_⟩
  · intro s t h
    cases h
    exact ⟨rfl, get_set_same s.regs .R _⟩
  · intro s w hbusy
    rw [transact_write_ok (by decide) (memWrite_cmd_idle hbusy w)]
    exact acceptCommand_prime w s
  · intro s cut
    rw [resetStep_status]
    rfl
  · intro s t
    rcases transact_status_cases t s with h | ⟨w, ht, _, h⟩ | ⟨_, _, _, h⟩ <;> rw [h]
    · exact .inl rfl
    · exact .inr ⟨w, ht, acceptCommand_prime w s⟩
    · exact .inl rfl

/-- Without DONE there is no `irq` (rule R36). -/
theorem irq_of_not_done {s : State} (h : s.status.done = false) : s.irq = false := by rw [State.irq, h, Bool.false_and]

/-- Settles O59: no command writes IRQ_EN, and each of the clearing events clears DONE or IRQ_EN. -/
theorem irqFollowsDoneAndEnable : Obligations.IrqFollowsDoneAndEnable := by
  refine ⟨?_, fun s data => ⟨_, memWrite_ctrl data s, rfl⟩, ?_, ?_, ?_⟩
  · intro i s t h hdone
    rw [State.irq, hdone, Bool.true_and, exec_irqEn h]
  · intro s data hack
    exact ⟨_, memWrite_status_ack hack s, irq_of_not_done rfl⟩
  · intro s w i hbusy hd
    refine ⟨_, memWrite_cmd_idle hbusy w, irq_of_not_done ?_⟩
    rw [acceptCommand_status_legal hd]
    rfl
  · intro s cut
    exact irq_of_not_done (by rw [resetStep_status]; rfl)

end Sys2Proof.Machine
end

section
/-! Acceptance of an encoded command: its word decodes to the command, and the engine's latches stand for the word
(`30_encoding.md` rules R86, R88, `60_exceptions.md` rule R201). -/

namespace Sys2Proof

/-- The opcode map gives back the command whose opcode and BITLEN it is given (rule R84). -/
theorem instrOf_fields {op : BitVec 8} {L : BitVec 16} {i : Instr} (hop : op.toNat = opcode i)
    (hL : L.toNat = bitlenOf i) : instrOf op L = some i := by
  cases i <;> simp_all [instrOf, opcode, bitlenOf]

/-- Every opcode is one of rule R84's ten. -/
theorem opcode_range (i : Instr) : 1 ≤ opcode i ∧ opcode i ≤ 0x0A := by cases i <;> simp [opcode]

/-- A command whose opcode takes no BITLEN has BITLEN 0 (rules R83, R88). -/
theorem bitlenOf_of_not_takes {op : BitVec 8} {i : Instr} (hop : op.toNat = opcode i) (htakes : takesBitlen op = false) :
    bitlenOf i = 0 := by
  have hword : op = BitVec.ofNat 8 (opcode i) := BitVec.eq_of_toNat_eq (by simp [← hop])
  subst hword
  cases i with
  | genprime _ => cases htakes
  | keygen _ => cases htakes
  | gcd | egcd | modinv | mrtest | modpow | encrypt | decrypt | decryptCrt => rfl

/-- A word that holds a command's opcode, its BITLEN and a zero RSVD decodes to it: no check of rule R86 refuses it. -/
theorem decode_of_fields {w : Word} {i : Instr} (hop : (opField w).toNat = opcode i) (hrsvd : rsvdField w = 0)
    (hbl : (bitlenField w).toNat = bitlenOf i) : decode w = .legal i := by
  obtain ⟨hpos, hle⟩ := opcode_range i
  have hzero : opField w ≠ 0 := fun h => by simp [h] at hop; omega
  have hstray : ¬ (takesBitlen (opField w) = false ∧ bitlenField w ≠ 0) := fun ⟨htakes, hne⟩ =>
    hne (BitVec.eq_of_toNat_eq (hbl.trans (bitlenOf_of_not_takes hop htakes)))
  rw [decode, if_neg hzero, if_neg (by omega), if_neg (by simp [hrsvd]), if_neg hstray, instrOf_fields hop hbl]

/-- The fields of an encoded command, whichever it is (rules R80, R88). -/
theorem encode_fields (i : Instr) : Laws.EncodedFields.Statement i := by
  cases i with
  | gcd => exact Laws.EncodedFields.gcd
  | egcd => exact Laws.EncodedFields.egcd
  | modinv => exact Laws.EncodedFields.modinv
  | mrtest => exact Laws.EncodedFields.mrtest
  | genprime L => exact Laws.EncodedFields.genprime L
  | keygen L => exact Laws.EncodedFields.keygen L
  | modpow => exact Laws.EncodedFields.modpow
  | encrypt => exact Laws.EncodedFields.encrypt
  | decrypt => exact Laws.EncodedFields.decrypt
  | decryptCrt => exact Laws.EncodedFields.decryptCrt

/-- The decoder undoes the encoder (rules R86, R88). -/
theorem decode_encode {i : Instr} (h : WellFormed i) : decode (encode i) = .legal i := by
  obtain ⟨hop, hrsvd, hbl, _⟩ := encode_fields i h
  exact decode_of_fields hop hrsvd hbl

end Sys2Proof

namespace Sys2Proof.Machine

/-- The state after an accepted CMD write, with nothing else scheduled (assumption log 6). -/
@[simp] theorem withFetchWord_toNat (s : State) (w : Word) :
    s.withFetchWord 32 w.toNat = acceptCommand w { s with schedule := [] } := by
  rw [State.withFetchWord, Nat.mod_eq_of_lt w.isLt, BitVec.ofNat_toNat, BitVec.setWidth_eq, withAcceptedWord]

/-- An accepted legal word is the command of the engine's next step (rules R37, R201). -/
theorem engineStep_acceptCommand {w : Word} {i : Instr} (hd : decode w = .legal i) (s : State) :
    engineStep (acceptCommand w s) = exec i (acceptCommand w s) := by
  refine engineStep_running ?_ ?_ <;> rw [acceptCommand_legal hd]
  · exact nofun
  · rw [engineWord_eq hd _ rfl rfl, hd]

/-- Settles O6: the accepted word decodes to the command and its latches stand for it, so the engine's step, the only one
left, is the command's. -/
theorem acceptedWordRunsNext : Obligations.AcceptedWordRunsNext := by
  intro s i hwf
  have hd := decode_encode hwf
  rw [withFetchWord_toNat]
  refine ⟨?_, acceptCommand_cmd _ _, ?_, acceptCommand_regs _ _⟩
  · rw [step_nil (acceptCommand_schedule _ _), engineStep_acceptCommand hd]
  · rw [acceptCommand_status_legal hd]
    rfl

end Sys2Proof.Machine
end

section
/-! The register window, access by access: the accesses refused to reads and writes alike, the operand words, and what a
transaction answers (`20_memory.md` rules R50 to R59). -/

namespace Sys2Proof.Machine

open Sys2Proof.Claims

/-- A misaligned access is refused (rule R57). -/
theorem access_misaligned {off : Nat} (ha : off % 4 ≠ 0) (s : State) :
    memRead off s = .busError .misaligned ∧ ∀ data, memWrite off data s = .busError .misaligned := by
  simp only [memRead, memWrite, if_pos ha, implies_true, and_self]

section Aligned

variable {off : Nat} {s : State} (ha : off % 4 = 0)
include ha

/-- A slot past W is refused (rule R52). -/
theorem access_noSlot (hp : placeAt s.cfg off = .noSlot) :
    memRead off s = .busError .noSlot ∧ ∀ data, memWrite off data s = .busError .noSlot := by
  simp [memRead, memWrite, ha, hp]

/-- An unmapped offset is refused (rule R51). -/
theorem access_unmapped (hp : placeAt s.cfg off = .unmapped) :
    memRead off s = .busError .unmapped ∧ ∀ data, memWrite off data s = .busError .unmapped := by
  simp [memRead, memWrite, ha, hp]

variable {r : OpReg} {j : Nat} (hp : placeAt s.cfg off = .operand r j)
include hp

/-- An operand word of a busy block is refused (rule R58). -/
theorem access_operand_busy (hbusy : s.status.busy = true) :
    memRead off s = .busError .busy ∧ ∀ data, memWrite off data s = .busError .busy := by
  simp [memRead, memWrite, ha, hp, hbusy]

/-- A read of an idle block's operand word (rule R55). -/
theorem memRead_operand_idle (hbusy : s.status.busy = false) :
    memRead off s = .ok (BitVec.ofNat 32 (wordOf (s.regs.get r) j)) := by
  simp [memRead, ha, hp, hbusy]

/-- A write of an idle block's operand word (rule R56). -/
theorem memWrite_operand_idle (hbusy : s.status.busy = false) (data : Word) :
    memWrite off data s = .ok { s with regs := s.regs.set r (putWord (s.regs.get r) j data) } := by
  simp [memWrite, ha, hp, hbusy]

end Aligned

/-- The control registers' offsets (rule R51). -/
theorem control_offset {off : Nat} (ha : off % 4 = 0) (hlt : off < 0x01C) :
    off = 0x000 ∨ off = 0x004 ∨ off = 0x008 ∨ off = 0x00C ∨ off = 0x010 ∨ off = 0x014 ∨ off = 0x018 := by
  omega

/-- A control register is read at any time (rule R55). -/
theorem memRead_control {off : Nat} (ha : off % 4 = 0) (hlt : off < 0x01C) (s : State) : ∃ w, memRead off s = .ok w := by
  rcases control_offset ha hlt with rfl | rfl | rfl | rfl | rfl | rfl | rfl <;> exact ⟨_, rfl⟩

/-- The offsets rule R58 refuses to reads and writes alike: misaligned, unmapped, past W, or an operand word of a busy
block. -/
def RefusedOffset (s : State) (off : Nat) : Prop :=
  off % 4 ≠ 0 ∨ (0x01C ≤ off ∧ off < 0x1000) ∨ 0x2600 ≤ off ∨
    (isOperandOffset off ∧ (s.cfg.nw ≤ (off - 0x1000) % 0x200 / 4 ∨ s.status.busy = true))

/-- The offsets rule R58 refuses to writes only: the read-only registers, and CFG and CMD of a busy block. -/
def WriteRefusedOffset (s : State) (off : Nat) : Prop :=
  off = 0x000 ∨ off = 0x004 ∨ off = 0x008 ∨ ((off = 0x010 ∨ off = 0x014) ∧ s.status.busy = true)

/-- Everything a 32-bit access can meet: a control register, a refusal of reads and writes alike, or an operand word, read
and written. -/
theorem access_cases (off : Nat) (s : State) :
    (off % 4 = 0 ∧ off < 0x01C ∧ ¬ RefusedOffset s off) ∨
    (RefusedOffset s off ∧ ∃ why, memRead off s = .busError why ∧ ∀ data, memWrite off data s = .busError why) ∨
    (0x1000 ≤ off ∧ ¬ RefusedOffset s off ∧ (∃ w, memRead off s = .ok w) ∧
      ∀ data, ∃ t, memWrite off data s = .ok t) := by
  unfold RefusedOffset isOperandOffset
  by_cases ha : off % 4 = 0
  · by_cases hlt : off < 0x01C
    · exact .inl ⟨ha, hlt, by omega⟩
    · right
      rcases placeAt_cases s.cfg ha with ⟨h, _⟩ | ⟨h, _⟩ | ⟨h, _⟩ | ⟨h, _⟩ | ⟨h, _⟩ | ⟨h, _⟩ | ⟨h, _⟩ |
        ⟨hlo, hhi, hj, r, hp⟩ | ⟨hlo, hhi, hj, hp⟩ | ⟨hgap, hp⟩
      iterate 7 exact absurd h (by omega)
      · cases hbusy : s.status.busy with
        | true => exact .inl ⟨by simp [hlo, hhi], _, access_operand_busy ha hp hbusy⟩
        | false =>
          exact .inr ⟨hlo, by simp only [Bool.false_eq_true, or_false]; omega, ⟨_, memRead_operand_idle ha hp hbusy⟩,
            fun data => ⟨_, memWrite_operand_idle ha hp hbusy data⟩⟩
      · exact .inl ⟨by omega, _, access_noSlot ha hp⟩
      · exact .inl ⟨by omega, _, access_unmapped ha hp⟩
  · exact .inr (.inl ⟨.inl ha, _, access_misaligned ha s⟩)

/-- Rule R58's cases for a 32-bit read. -/
theorem memRead_busError_iff (off : Nat) (s : State) :
    (∃ why, memRead off s = .busError why) ↔ RefusedOffset s off := by
  rcases access_cases off s with ⟨ha, hlt, hok⟩ | ⟨hrefused, why, hread, _⟩ | ⟨_, hok, ⟨w, hread⟩, _⟩
  · obtain ⟨w, hread⟩ := memRead_control ha hlt s
    simp [hread, hok]
  · simp [hread, hrefused]
  · simp [hread, hok]

/-- A word write of a control register is refused to exactly the read-only ones and, while busy, to CFG and CMD. -/
theorem memWrite_control_busError_iff {off : Nat} (ha : off % 4 = 0) (hlt : off < 0x01C) (data : Word) (s : State) :
    (∃ why, memWrite off data s = .busError why) ↔ WriteRefusedOffset s off := by
  rcases control_offset ha hlt with rfl | rfl | rfl | rfl | rfl | rfl | rfl
  · simp [WriteRefusedOffset]
  · simp [WriteRefusedOffset]
  · simp [WriteRefusedOffset]
  · simp [WriteRefusedOffset]
  · cases hbusy : s.status.busy <;> simp [WriteRefusedOffset, memWrite_cfg, hbusy]
  · cases hbusy : s.status.busy <;> simp [WriteRefusedOffset, memWrite_cmd, hbusy]
  · simp [WriteRefusedOffset, memWrite_status]

/-- Rule R58's cases for a 32-bit write. -/
theorem memWrite_busError_iff (off : Nat) (data : Word) (s : State) :
    (∃ why, memWrite off data s = .busError why) ↔ RefusedOffset s off ∨ WriteRefusedOffset s off := by
  rcases access_cases off s with ⟨ha, hlt, hok⟩ | ⟨hrefused, why, _, hwrite⟩ | ⟨hlo, hok, _, hwrite⟩
  · rw [memWrite_control_busError_iff ha hlt]
    simp [hok]
  · simp [hwrite, hrefused]
  · obtain ⟨t, ht⟩ := hwrite data
    have hstore : ¬ WriteRefusedOffset s off := by unfold WriteRefusedOffset; omega
    simp [ht, hok, hstore]

/-- Everything a read inside the window answers: a bus error, which is all that happens, or a word. -/
theorem answerRead_cases (off : Nat) (size : AccessSize) (s : State) :
    (∃ why, (size ≠ .word ∨ memRead off s = .busError why) ∧ answerRead off size s = busError why s) ∨
    (∃ w, size = .word ∧ memRead off s = .ok w ∧ answerRead off size s = { s with response := some (.data w) }) := by
  by_cases hsize : size = .word
  · cases hread : memRead off s with
    | ok w => exact .inr ⟨w, hsize, rfl, by simp [answerRead, hsize, hread]⟩
    | busError why => exact .inl ⟨why, .inr rfl, by simp [answerRead, hsize, hread]⟩
  · exact .inl ⟨.notWord, .inl hsize, by simp [answerRead, hsize]⟩

/-- Everything a write inside the window answers: a bus error, which is all that happens, or the word write's result. -/
theorem answerWrite_cases (off : Nat) (size : AccessSize) (strobes : BitVec 4) (data : Word) (s : State) :
    (∃ why, (size ≠ .word ∨ strobes ≠ 0xF ∨ memWrite off data s = .busError why) ∧
      answerWrite off size strobes data s = busError why s) ∨
    (∃ t, size = .word ∧ strobes = 0xF ∧ memWrite off data s = .ok t ∧
      answerWrite off size strobes data s = { t with response := some .written }) := by
  by_cases hpartial : size ≠ .word ∨ strobes ≠ 0xF
  · exact .inl ⟨.notWord, hpartial.imp_right .inl, by rw [answerWrite, if_pos hpartial]⟩
  · obtain ⟨rfl, rfl⟩ : size = .word ∧ strobes = 0xF := by simpa using hpartial
    cases hwrite : memWrite off data s with
    | ok t => exact .inr ⟨t, rfl, rfl, rfl, by simp [answerWrite, hwrite]⟩
    | busError why => exact .inl ⟨why, .inr (.inr rfl), by simp [answerWrite, hwrite]⟩

/-- A read inside the window is answered with a bus error unless it is a 32-bit one its offset allows. -/
theorem answerRead_busError_iff (off : Nat) (size : AccessSize) (s : State) :
    (∃ why, (answerRead off size s).response = some (.busError why)) ↔ size ≠ .word ∨ RefusedOffset s off := by
  rw [← memRead_busError_iff]
  rcases answerRead_cases off size s with ⟨why, hcause, h⟩ | ⟨w, rfl, hread, h⟩
  · simp only [h, busError_response, Option.some.injEq, Response.busError.injEq, exists_eq', true_iff]
    exact hcause.imp_right fun hread => ⟨why, hread⟩
  · simp [h, hread]

/-- A write inside the window is answered with a bus error unless it is a full 32-bit one its offset allows. -/
theorem answerWrite_busError_iff (off : Nat) (size : AccessSize) (strobes : BitVec 4) (data : Word) (s : State) :
    (∃ why, (answerWrite off size strobes data s).response = some (.busError why)) ↔
      size ≠ .word ∨ strobes ≠ 0xF ∨ RefusedOffset s off ∨ WriteRefusedOffset s off := by
  rw [← memWrite_busError_iff off data]
  rcases answerWrite_cases off size strobes data s with ⟨why, hcause, h⟩ | ⟨t, rfl, rfl, hwrite, h⟩
  · simp only [h, busError_response, Option.some.injEq, Response.busError.injEq, exists_eq', true_iff]
    exact hcause.imp_right (Or.imp_right fun hwrite => ⟨why, hwrite⟩)
  · simp only [h, hwrite]
    simp

/-- A read inside the window is the read of its offset (rule R50). -/
theorem transact_read_inside {off : Nat} (h : off < 0x4000) (size : AccessSize) (s : State) :
    transact (.read (s.cfg.base + off) size) s = answerRead off size s := by
  simp only [transact, offsetOf_base s.cfg h]

/-- A write inside the window is the write of its offset (rule R50). -/
theorem transact_write_inside {off : Nat} (h : off < 0x4000) (size : AccessSize) (strobes : BitVec 4) (data : Word)
    (s : State) : transact (.write (s.cfg.base + off) size strobes data) s = answerWrite off size strobes data s := by
  simp only [transact, offsetOf_base s.cfg h]

/-- The block decodes no address outside the window (rule R50). -/
theorem offsetOf_outside {c : Config} {addr : Nat} (h : addr < c.base ∨ c.base + 0x4000 ≤ addr) :
    offsetOf c addr = none := by
  rw [offsetOf, if_neg (by omega)]

/-- Settles O46: the answers of a read and of a write are those of the access at the offset, whose cases are the map's. -/
theorem busErrorsAreExactlyTheListedCases : Obligations.BusErrorsAreExactlyTheListedCases := by
  intro s off hoff
  simp only [transact_read_inside hoff, transact_write_inside hoff]
  refine ⟨?_, fun size => answerRead_busError_iff off size s, ?_, ?_⟩
  · intro size
    exact (answerRead_cases off size s).imp (fun ⟨why, _, h⟩ => ⟨why, h⟩) fun ⟨w, _, _, h⟩ => ⟨w, h⟩
  · intro size strobes data
    rw [answerWrite_busError_iff]
    simp only [RefusedOffset, WriteRefusedOffset, or_assoc]
  · intro size strobes data why hresp
    rcases answerWrite_cases off size strobes data s with ⟨_, _, h⟩ | ⟨_, _, _, _, h⟩ <;> rw [h] at hresp ⊢ <;>
      cases hresp
    rfl

/-- Settles O47: outside the window nothing is decoded, and a read only answers. -/
theorem readsAndForeignTransactionsChangeNothing : Obligations.ReadsAndForeignTransactionsChangeNothing := by
  refine fun s => ⟨fun addr size hout => ?_, fun addr size => ?_⟩
  · simp only [transact, offsetOf_outside hout, implies_true, and_self]
  · obtain ⟨_, _, h, _⟩ := transact_read_shape addr size s
    rw [h]

end Sys2Proof.Machine
end

section
/-! Operand registers over the bus: the words a host reads, the sign bit among them, and what a word write changes
(`20_memory.md` rules R52, R53, R56, `70_reset_and_hazards.md` rule R242). -/

namespace Sys2Proof.Machine

/-- Word `j` of register `r` is read from an idle block at its offset (rules R52, R55). -/
theorem memRead_word {s : State} (hc : s.cfg.wf) (hbusy : s.status.busy = false) (r : OpReg) {j : Nat}
    (hj : j < s.cfg.nw) :
    memRead (0x1000 + 0x200 * r.index + 4 * j) s = .ok (BitVec.ofNat 32 (wordOf (s.regs.get r) j)) :=
  memRead_operand_idle (by omega) (placeAt_operand s.cfg r hj hc.2.1) hbusy

/-- Word `j` of register `r` of an idle block is written at its offset (rules R52, R56). -/
theorem memWrite_word {s : State} (hc : s.cfg.wf) (hbusy : s.status.busy = false) (r : OpReg) {j : Nat}
    (hj : j < s.cfg.nw) (data : Word) :
    memWrite (0x1000 + 0x200 * r.index + 4 * j) data s =
      .ok { s with regs := s.regs.set r (putWord (s.regs.get r) j data) } :=
  memWrite_operand_idle (by omega) (placeAt_operand s.cfg r hj hc.2.1) hbusy data

/-- The first `n` words of a value, word 0 first (rule R53). -/
def wordsOf (n v : Nat) : List Word := (List.range n).map fun j => BitVec.ofNat 32 (wordOf v j)

@[simp] theorem wordsOf_length (n v : Nat) : (wordsOf n v).length = n := by simp [wordsOf]

theorem wordsOf_getElem? {n j : Nat} (hj : j < n) (v : Nat) :
    (wordsOf n v)[j]? = some (BitVec.ofNat 32 (wordOf v j)) := by
  simp [wordsOf, hj]

/-- A word of a value fits the bus word that carries it. -/
theorem ofNat_wordOf_toNat (v j : Nat) : (BitVec.ofNat 32 (wordOf v j)).toNat = wordOf v j := by
  rw [BitVec.toNat_ofNat, Nat.mod_eq_of_lt (wordOf_lt v j)]

/-- Bit `i` of word `j` is bit 32j + i of the value (rule R53). -/
theorem ofNat_wordOf_getLsbD {i : Nat} (hi : i < 32) (v j : Nat) :
    (BitVec.ofNat 32 (wordOf v j)).getLsbD i = v.testBit (32 * j + i) := by
  rw [← BitVec.testBit_toNat, ofNat_wordOf_toNat, wordOf, Nat.testBit_mod_two_pow, Nat.testBit_div_two_pow]
  simp [hi, Nat.add_comm]

/-- The two's-complement sign of a W-bit value is its top bit (rules R12, R53). -/
theorem sextW_neg_iff {n u : Nat} (hu : u < 2 ^ (n + 1)) : sextW (n + 1) u < 0 ↔ u.testBit n = true := by
  rw [sextW, Nat.add_sub_cancel]
  by_cases hlow : u < 2 ^ n
  · simp [hlow, Nat.testBit_lt_two_pow hlow]
  · have htop : u.testBit n = true := Nat.testBit_of_two_pow_le_and_two_pow_add_one_gt (by omega) hu
    have hneg : (u : Int) < 2 ^ (n + 1) := by exact_mod_cast hu
    simp [hlow, htop, hneg]

/-- Settles O51: the words are those of the register's value, and bit 31 of the last one is the value's top bit. -/
theorem operandRegistersReadLittleEndian : Obligations.OperandRegistersReadLittleEndian := by
  intro s r hi hbusy
  have hfits := hi.fits r
  refine ⟨wordsOf s.cfg.nw (s.regs.get r), wordsOf_length _ _, fun j hj => ?_, ?_, ?_⟩
  · exact ⟨_, wordsOf_getElem? hj _, memRead_word hi.params hbusy r hj, ofNat_wordOf_toNat _ j⟩
  · exact (valueOfWords_words _ _ hfits).symm
  · have hpos := hi.params.1
    have hW : s.cfg.W = 32 * (s.cfg.nw - 1) + 31 + 1 := by rw [Config.W]; omega
    rw [hW] at hfits ⊢
    rw [sextW_neg_iff hfits, wordsOf_getElem? (by omega)]
    simp only [Option.some.injEq, exists_eq_left', ofNat_wordOf_getLsbD (show 31 < 32 by decide)]

/-- After word `j` of register `r` is replaced, every other offset of the window reads as before (rule R56: "only word j
changes"). -/
theorem memRead_putWord_other {off : Nat} {r : OpReg} {j : Nat} (hne : off ≠ 0x1000 + 0x200 * r.index + 4 * j)
    (data : Word) (s : State) :
    memRead off { s with regs := s.regs.set r (putWord (s.regs.get r) j data) } = memRead off s := by
  refine memRead_regs fun r' j' ha hp _ => ?_
  have hoff := placeAt_operand_inj ha hp
  by_cases hr : r' = r
  · subst hr
    have hj : j' ≠ j := fun h => hne (h ▸ hoff)
    rw [get_set_same, wordOf_putWord_other hj]
  · rw [get_set_other hr]

/-- Settles O52: the register's word `j` is replaced, and no offset but that word's reads it. -/
theorem operandWriteChangesOneWord : Obligations.OperandWriteChangesOneWord := by
  intro s r j data hc hbusy hj
  refine ⟨putWord (s.regs.get r) j data, memWrite_word hc hbusy r hj data, ?_, fun off hne =>
    memRead_putWord_other hne data s, fun hv => putWord_lt hv hj data⟩
  rw [memRead_word (s := { s with regs := s.regs.set r (putWord (s.regs.get r) j data) }) hc hbusy r hj, get_set_same,
    wordOf_putWord_same, BitVec.ofNat_toNat, BitVec.setWidth_eq]

end Sys2Proof.Machine
end

section
/-! The command word both ways: the decoder undoes the encoder, on words and on byte lanes, and the encoder undoes the
decoder; and rule R86 as a condition on the word's number (`30_encoding.md` rules R84 to R91). -/

namespace Sys2Proof

/-- The four byte lanes of a bus word, put side by side, are the word (`20_memory.md` rule R54). -/
theorem lanes_append (w : Word) :
    w.extractLsb' 24 8 ++ w.extractLsb' 16 8 ++ w.extractLsb' 8 8 ++ w.extractLsb' 0 8 = w := by
  rw [BitVec.extractLsb'_append_extractLsb'_eq_extractLsb' (show 24 = 16 + 8 by decide),
    BitVec.extractLsb'_append_extractLsb'_eq_extractLsb' (show 16 = 8 + 8 by decide),
    BitVec.extractLsb'_append_extractLsb'_eq_extractLsb' (show 8 = 0 + 8 by decide)]
  exact BitVec.extractLsb'_eq_self

/-- The lane decoder reads the lanes of a word as the word (rules R54, R80). -/
@[simp] theorem decodeLanes_lanesOf (w : Word) : decodeLanes (lanesOf w) = decode w :=
  congrArg decode (lanes_append w)

/-- Settles O1: the fields of the encoding are the command's, so no check of rule R86 refuses it; its lanes are the word. -/
theorem decodeOfEncodeIsTheCommand : Obligations.DecodeOfEncodeIsTheCommand := by
  intro i hwf
  rw [decodeLanes_lanesOf]
  exact ⟨decode_encode hwf, decode_encode hwf⟩

/-- The encoder undoes the decoder: a legal word has no bit outside its OP and BITLEN (rules R82, R86, R88). -/
theorem encode_of_decode {w : Word} {i : Instr} (h : decode w = .legal i) : encode i = w := by
  obtain ⟨hop, hbl, hrsvd, hwf⟩ := decode_legal h
  obtain ⟨_, _, _, henc⟩ := encode_fields i hwf
  have hw := word_fields w
  rw [hrsvd, show (0 : BitVec 8).toNat = 0 from rfl] at hw
  exact BitVec.eq_of_toNat_eq (by omega)

/-- Settles O2: a legal word is made of its command's opcode and BITLEN alone, as the encoder makes it. -/
theorem encodeOfDecodeIsTheWord : Obligations.EncodeOfDecodeIsTheWord := by
  intro w i h
  obtain ⟨_, _, _, hwf⟩ := decode_legal h
  exact ⟨hwf, encode_of_decode h⟩

/-- The opcodes and BITLENs that are some command's: the ten of rule R84, with a BITLEN on GENPRIME and KEYGEN only (rule
R83). -/
theorem exists_instr_iff (op L : Nat) :
    (∃ i, opcode i = op ∧ bitlenOf i = L) ↔ (1 ≤ op ∧ op ≤ 0x0A) ∧ (op = 0x05 ∨ op = 0x06 ∨ L = 0) := by
  constructor
  · rintro ⟨i, rfl, rfl⟩
    refine ⟨opcode_range i, ?_⟩
    cases i with
    | genprime _ => exact .inl rfl
    | keygen _ => exact .inr (.inl rfl)
    | gcd | egcd | modinv | mrtest | modpow | encrypt | decrypt | decryptCrt => exact .inr (.inr rfl)
  · rintro ⟨⟨hpos, hle⟩, htakes⟩
    by_cases h5 : op = 0x05
    · exact ⟨.genprime L, h5.symm, rfl⟩
    by_cases h6 : op = 0x06
    · exact ⟨.keygen L, h6.symm, rfl⟩
    obtain rfl : L = 0 := by omega
    interval_cases op
    · exact ⟨.gcd, rfl, rfl⟩
    · exact ⟨.egcd, rfl, rfl⟩
    · exact ⟨.modinv, rfl, rfl⟩
    · exact ⟨.mrtest, rfl, rfl⟩
    · exact absurd rfl h5
    · exact absurd rfl h6
    · exact ⟨.modpow, rfl, rfl⟩
    · exact ⟨.encrypt, rfl, rfl⟩
    · exact ⟨.decrypt, rfl, rfl⟩
    · exact ⟨.decryptCrt, rfl, rfl⟩

/-- Rule R86, LEGAL: RSVD is 0, and OP and BITLEN are the command's. -/
theorem decode_legal_iff (w : Word) (i : Instr) :
    decode w = .legal i ↔
      opcode i = w.toNat % 2 ^ 8 ∧ bitlenOf i = w.toNat / 2 ^ 16 ∧ w.toNat / 2 ^ 8 % 2 ^ 8 = 0 := by
  rw [← opField_toNat, ← bitlenField_toNat, ← rsvdField_toNat]
  constructor
  · intro h
    obtain ⟨hop, hbl, hrsvd, _⟩ := decode_legal h
    exact ⟨hop, hbl, congrArg BitVec.toNat hrsvd⟩
  · rintro ⟨hop, hbl, hrsvd⟩
    exact decode_of_fields hop.symm (BitVec.eq_of_toNat_eq hrsvd) hbl.symm

/-- Rule R86's checks: the words that are legal. -/
def LegalWord (w : Word) : Prop :=
  ((1 ≤ w.toNat % 2 ^ 8 ∧ w.toNat % 2 ^ 8 ≤ 0x0A) ∧
    (w.toNat % 2 ^ 8 = 0x05 ∨ w.toNat % 2 ^ 8 = 0x06 ∨ w.toNat / 2 ^ 16 = 0)) ∧ w.toNat / 2 ^ 8 % 2 ^ 8 = 0

/-- A word is decoded LEGAL exactly when it passes rule R86's checks. -/
theorem exists_decode_legal_iff (w : Word) : (∃ i, decode w = .legal i) ↔ LegalWord w := by
  simp only [decode_legal_iff, LegalWord, ← exists_instr_iff, ← and_assoc, exists_and_right]

/-- A word that fails one of the checks is decoded ILLEGAL: `decode` is total (rule R86). -/
theorem exists_decode_illegal {w : Word} (h : ¬ LegalWord w) : ∃ why, decode w = .illegal why := by
  cases hd : decode w with
  | illegal why => exact ⟨why, rfl⟩
  | legal i => exact absurd ((exists_decode_legal_iff w).mp ⟨i, hd⟩) h

/-- Settles O3: each of the first three clauses fails one check of `LegalWord`, and the last one passes them all. -/
theorem decodeRejectsExactlyTheIllegalWords : Obligations.DecodeRejectsExactlyTheIllegalWords := by
  intro w
  refine ⟨fun hop => ?_, fun hrsvd => ?_, fun hstray => ?_, fun ⟨hpos, hle, hrsvd, htakes⟩ => ?_⟩
  · exact exists_decode_illegal fun ⟨⟨hrange, _⟩, _⟩ => by omega
  · exact exists_decode_illegal fun ⟨_, hzero⟩ => hrsvd hzero
  · exact exists_decode_illegal fun ⟨⟨_, htakes⟩, _⟩ => by omega
  · obtain ⟨i, hd⟩ := (exists_decode_legal_iff w).mpr ⟨⟨⟨hpos, hle⟩, htakes⟩, hrsvd⟩
    obtain ⟨hop, hbl, _⟩ := (decode_legal_iff w i).mp hd
    exact ⟨i, hd, hop, hbl⟩

/-- Settles O4: each row of the table is one evaluation of the encoder or of the decoder. -/
theorem workedEncodings : Obligations.WorkedEncodings :=
  ⟨rfl, rfl, rfl, rfl, rfl, rfl, rfl, rfl, rfl, rfl, rfl, rfl, rfl, rfl, rfl, rfl, rfl, rfl, rfl, rfl, rfl, rfl,
    ⟨.strayBitlen, rfl⟩, ⟨.rsvdNonzero, rfl⟩, ⟨.opUnassigned, rfl⟩, ⟨.opZero, rfl⟩⟩

end Sys2Proof
end

section
/-! What an engine step does and what it depends on (`30_encoding.md` rule R85): every command's step is an effect, the same
one in every state that gives the command the same inputs, and an effect changes only what is the command's to change. -/

namespace Sys2Proof.Machine

open Sys2Proof.Claims

/-- What an engine step does, as a change that can be made to any state. -/
inductive Effect where
  /-- A step of a search: the entropy source and the engine move on (rules R127, R140). -/
  | search (en : Entropy) (e : Engine)
  /-- A commit of the held writes (rule R203). -/
  | commit (ws : List (OpReg × Nat)) (en : Entropy)
  /-- MRTEST's commit, of its answer (rule R125). -/
  | commitPrime (b : Bool) (en : Entropy)
  /-- An error completion (rule R204). -/
  | fail (code : ErrCode) (en : Entropy)

/-- The change an effect makes. -/
def Effect.apply : Effect → State → State
  | .search en e, s => { s with entropy := en, eng := e }
  | .commit ws en, s => complete ws { s with entropy := en }
  | .commitPrime b en, s => completePrime b { s with entropy := en }
  | .fail code en, s => raiseErr code { s with entropy := en }

/-- The commands that draw random values (rules R120, R126). -/
def DrawsEntropy (i : Instr) : Prop := (∃ L, i = .genprime L) ∨ (∃ L, i = .keygen L) ∨ i = .mrtest

/-- The effects a step of `i` may have in `s`: only a search goes on, and keeps the command's latches; only the registers of
rule R85's "writes" column are written; and only KEYGEN holds a prime in ENG.kg_p. -/
def Effect.OwnedBy (i : Instr) (s : State) : Effect → Prop
  | .search en e => searches i = true ∧ e.op = s.eng.op ∧ e.bitlen = s.eng.bitlen ∧
      (e.kgP = s.eng.kgP ∨ ∃ L, i = .keygen L) ∧ (en = s.entropy ∨ DrawsEntropy i)
  | .commit ws en => (∀ w ∈ ws, w.1 ∈ writesOf i) ∧ (en = s.entropy ∨ DrawsEntropy i)
  | .commitPrime _ _ => i = .mrtest
  | .fail _ en => en = s.entropy ∨ DrawsEntropy i

/-- The states that give `i` the inputs `s` does: the parameters, CFG, the engine, the entropy source and the registers of
rule R85's "reads" column. -/
structure SameInputs (i : Instr) (s s' : State) : Prop where
  cfg : s'.cfg = s.cfg
  rounds : s'.rounds = s.rounds
  eng : s'.eng = s.eng
  entropy : s'.entropy = s.entropy
  regs : ∀ r ∈ readsOf i, s'.regs.get r = s.regs.get r

/-- The step of `i` is one effect in all states with the inputs of `s`, and the effect is the command's own. -/
def HasEffect (i : Instr) (s : State) : Prop :=
  ∃ f : Effect, f.OwnedBy i s ∧ ∀ s', SameInputs i s s' → exec i s' = .next (f.apply s')

section Effects

variable {i : Instr} {s : State}

/-- A commit that draws nothing. -/
theorem HasEffect.commit (ws : List (OpReg × Nat)) (hws : ∀ w ∈ ws, w.1 ∈ writesOf i)
    (h : ∀ s', SameInputs i s s' → exec i s' = .next (complete ws s')) : HasEffect i s := by
  refine ⟨.commit ws s.entropy, ⟨hws, .inl rfl⟩, fun s' hs => ?_⟩
  rw [h s' hs, ← hs.entropy]
  rfl

/-- An error completion that draws nothing. -/
theorem HasEffect.fail (code : ErrCode) (h : ∀ s', SameInputs i s s' → exec i s' = .next (raiseErr code s')) :
    HasEffect i s := by
  refine ⟨.fail code s.entropy, .inl rfl, fun s' hs => ?_⟩
  rw [h s' hs, ← hs.entropy]
  rfl

end Effects

theorem gcd_hasEffect (s : State) : HasEffect .gcd s := by
  refine .commit [(.R, gcdF (s.regs.get .A) (s.regs.get .B))] (by simp [writesOf]) fun s' hs => ?_
  rw [← hs.regs .A (by decide), ← hs.regs .B (by decide)]
  rfl

theorem egcd_hasEffect (s : State) : HasEffect .egcd s := by
  refine .commit [(.R, (egcdF (s.regs.get .A) (s.regs.get .B)).1),
    (.X, tcW s.cfg.W (egcdF (s.regs.get .A) (s.regs.get .B)).2.1),
    (.Y, tcW s.cfg.W (egcdF (s.regs.get .A) (s.regs.get .B)).2.2)] (by simp [writesOf]) fun s' hs => ?_
  rw [← hs.regs .A (by decide), ← hs.regs .B (by decide), ← hs.cfg]
  rfl

theorem modinv_hasEffect (s : State) : HasEffect .modinv s := by
  by_cases hM : s.regs.get .M = 0
  · refine .fail .divzero fun s' hs => ?_
    simp [exec, execModinv, hs.regs .M (by decide), hM]
  by_cases hg : gcdF (s.regs.get .A) (s.regs.get .M) = 1
  · refine .commit [(.R, modinvF (s.regs.get .A) (s.regs.get .M))] (by simp [writesOf]) fun s' hs => ?_
    simp [exec, execModinv, hs.regs .A (by decide), hs.regs .M (by decide), hM, hg]
  · refine .fail .noinv fun s' hs => ?_
    simp [exec, execModinv, hs.regs .A (by decide), hs.regs .M (by decide), hM, hg]

theorem mrtest_hasEffect (s : State) : HasEffect .mrtest s := by
  refine ⟨.commitPrime (mrF (s.regs.get .A) s.rounds.toNat s.entropy).1 (mrF (s.regs.get .A) s.rounds.toNat s.entropy).2,
    rfl, fun s' hs => ?_⟩
  rw [← hs.regs .A (by decide), ← hs.rounds, ← hs.entropy]
  rfl

theorem genprime_hasEffect (L : Nat) (s : State) : HasEffect (.genprime L) s := by
  have hdraws : DrawsEntropy (.genprime L) := .inl ⟨L, rfl⟩
  cases hck : s.eng.checked with
  | false =>
    by_cases hL : s.cfg.W < L
    · refine .fail .badlen fun s' hs => ?_
      simp [exec, execGenprime, hs.eng, hs.cfg, hck, hL]
    · refine ⟨.search s.entropy { s.eng with checked := true }, ⟨rfl, rfl, rfl, .inl rfl, .inl rfl⟩,
        fun s' hs => ?_⟩
      simp [exec, execGenprime, Effect.apply, hs.eng, hs.cfg, hs.entropy, hck, hL]
  | true =>
    cases hp : (attempt L s.rounds.toNat s.entropy).passed with
    | false =>
      refine ⟨.search (attempt L s.rounds.toNat s.entropy).entropy s.eng, ⟨rfl, rfl, rfl, .inl rfl, .inr hdraws⟩,
        fun s' hs => ?_⟩
      simp [exec, execGenprime, genprimeAttempt, Effect.apply, hs.eng, hs.rounds, hs.entropy, hck, hp]
    | true =>
      refine ⟨.commit [(.R, (attempt L s.rounds.toNat s.entropy).candidate)] (attempt L s.rounds.toNat s.entropy).entropy,
        ⟨by simp [writesOf], .inr hdraws⟩, fun s' hs => ?_⟩
      simp [exec, execGenprime, genprimeAttempt, Effect.apply, hs.eng, hs.rounds, hs.entropy, hck, hp]

/-- KEYGEN's key arithmetic is an effect: it reads no operand register (rule R140). -/
theorem keygenFinish_effect (L p q : Nat) (en : Entropy) (s : State) : ∃ f : Effect, f.OwnedBy (.keygen L) s ∧
    ∀ s', keygenFinish p q { s' with entropy := en } = f.apply s' := by
  have hdraws : DrawsEntropy (.keygen L) := .inr (.inl ⟨L, rfl⟩)
  by_cases hg : gcdF Config.eConst ((p - 1) * (q - 1)) = 1
  · exact ⟨.commit
        [(.E, Config.eConst), (.N, p * q), (.D, modinvF Config.eConst ((p - 1) * (q - 1))), (.P, p), (.Q, q)] en,
      ⟨by simp [writesOf], .inr hdraws⟩, fun s' => by simp [keygenFinish, hg, Effect.apply]⟩
  · exact ⟨.fail .expnotinv en, .inr hdraws, fun s' => by simp [keygenFinish, hg, Effect.apply]⟩

theorem keygen_hasEffect (L : Nat) (s : State) : HasEffect (.keygen L) s := by
  have hdraws : DrawsEntropy (.keygen L) := .inr (.inl ⟨L, rfl⟩)
  by_cases hq : s.eng.phase = .kgQ
  · cases hp : (attempt (L / 2) s.rounds.toNat s.entropy).passed with
    | false =>
      refine ⟨.search (attempt (L / 2) s.rounds.toNat s.entropy).entropy s.eng,
        ⟨rfl, rfl, rfl, .inl rfl, .inr hdraws⟩, fun s' hs => ?_⟩
      simp [exec, execKeygen, keygenAttemptQ, Effect.apply, hs.eng, hs.rounds, hs.entropy, hq, hp]
    | true =>
      obtain ⟨f, hown, hf⟩ := keygenFinish_effect L s.eng.kgP (attempt (L / 2) s.rounds.toNat s.entropy).candidate
        (attempt (L / 2) s.rounds.toNat s.entropy).entropy s
      refine ⟨f, hown, fun s' hs => ?_⟩
      rw [← hf]
      simp [exec, execKeygen, keygenAttemptQ, hs.eng, hs.rounds, hs.entropy, hq, hp]
  · cases hck : s.eng.checked with
    | false =>
      by_cases hL : L = 0 ∨ s.cfg.W < L
      · refine .fail .badlen fun s' hs => ?_
        simp [exec, execKeygen, keygenCheck, hs.eng, hs.cfg, hq, hck, hL]
      · refine ⟨.search s.entropy { s.eng with phase := .run, checked := true },
          ⟨rfl, rfl, rfl, .inl rfl, .inl rfl⟩, fun s' hs => ?_⟩
        simp [exec, execKeygen, keygenCheck, Effect.apply, hs.eng, hs.cfg, hs.entropy, hq, hck, hL]
    | true =>
      cases hp : (attempt (L / 2) s.rounds.toNat s.entropy).passed with
      | false =>
        refine ⟨.search (attempt (L / 2) s.rounds.toNat s.entropy).entropy s.eng,
          ⟨rfl, rfl, rfl, .inl rfl, .inr hdraws⟩, fun s' hs => ?_⟩
        simp [exec, execKeygen, keygenAttemptP, Effect.apply, hs.eng, hs.rounds, hs.entropy, hq, hck, hp]
      | true =>
        refine ⟨.search (attempt (L / 2) s.rounds.toNat s.entropy).entropy
            { s.eng with kgP := (attempt (L / 2) s.rounds.toNat s.entropy).candidate, phase := .kgQ },
          ⟨rfl, rfl, rfl, .inr ⟨L, rfl⟩, .inr hdraws⟩, fun s' hs => ?_⟩
        simp [exec, execKeygen, keygenAttemptP, Effect.apply, hs.eng, hs.rounds, hs.entropy, hq, hck, hp]

theorem modpow_hasEffect (s : State) : HasEffect .modpow s := by
  by_cases hM : s.regs.get .M = 0
  · refine .fail .divzero fun s' hs => ?_
    simp [exec, execModpow, hs.regs .M (by decide), hM]
  · refine .commit [(.R, modpowF (s.regs.get .A) (s.regs.get .B) (s.regs.get .M))] (by simp [writesOf]) fun s' hs => ?_
    simp [exec, execModpow, hs.regs .A (by decide), hs.regs .B (by decide), hs.regs .M (by decide), hM]

/-- ENCRYPT and DECRYPT, whose exponent register is `key`. -/
theorem unitDirect_hasEffect {i : Instr} {key : OpReg} (hexec : ∀ s, exec i s = .next (unitDirect key s))
    (hreads : readsOf i = [.A, key, .N]) (hwrites : writesOf i = [.R]) (s : State) : HasEffect i s := by
  by_cases hN : s.regs.get .N = 0
  · refine .fail .divzero fun s' hs => ?_
    simp [hexec, unitDirect, hs.regs .N (by simp [hreads]), hN]
  · refine .commit [(.R, modpowF (s.regs.get .A) (s.regs.get key) (s.regs.get .N))] (by simp [hwrites]) fun s' hs => ?_
    simp [hexec, unitDirect, hs.regs .A (by simp [hreads]), hs.regs key (by simp [hreads]),
      hs.regs .N (by simp [hreads]), hN]

theorem decryptCrt_hasEffect (s : State) : HasEffect .decryptCrt s := by
  have hchecks {s' : State} (hs : SameInputs .decryptCrt s s') :
      crtChecks (s'.regs.get .N) (s'.regs.get .P) (s'.regs.get .Q) =
        crtChecks (s.regs.get .N) (s.regs.get .P) (s.regs.get .Q) := by
    rw [hs.regs .N (by decide), hs.regs .P (by decide), hs.regs .Q (by decide)]
  rcases crtChecks_cases (s.regs.get .N) (s.regs.get .P) (s.regs.get .Q) with
    ⟨_, hc⟩ | ⟨_, _, _, _, hc⟩ | ⟨_, _, _, _, hc⟩
  · exact .fail .divzero fun s' hs => by simp only [exec, execDecryptCrt, hchecks hs, hc]
  · exact .fail .noinv fun s' hs => by simp only [exec, execDecryptCrt, hchecks hs, hc]
  · refine .commit [(.R, crtF (s.regs.get .A) (s.regs.get .D) (s.regs.get .N) (s.regs.get .P) (s.regs.get .Q))]
      (by simp [writesOf]) fun s' hs => ?_
    simp only [exec, execDecryptCrt, hchecks hs, hc]
    rw [hs.regs .A (by decide), hs.regs .D (by decide), hs.regs .N (by decide), hs.regs .P (by decide),
      hs.regs .Q (by decide)]

/-- Every step of every command is an effect of the command's own, determined by its inputs (rule R85). -/
theorem exec_hasEffect (i : Instr) (s : State) : HasEffect i s := by
  cases i with
  | gcd => exact gcd_hasEffect s
  | egcd => exact egcd_hasEffect s
  | modinv => exact modinv_hasEffect s
  | mrtest => exact mrtest_hasEffect s
  | genprime L => exact genprime_hasEffect L s
  | keygen L => exact keygen_hasEffect L s
  | modpow => exact modpow_hasEffect s
  | encrypt => exact unitDirect_hasEffect (key := .E) (fun _ => rfl) rfl rfl s
  | decrypt => exact unitDirect_hasEffect (key := .D) (fun _ => rfl) rfl rfl s
  | decryptCrt => exact decryptCrt_hasEffect s

/-- A state gives a command its own inputs. -/
theorem SameInputs.refl (i : Instr) (s : State) : SameInputs i s s := ⟨rfl, rfl, rfl, rfl, fun _ _ => rfl⟩

/-- An effect is not on the parameters, CTRL, CFG or CMD, and not on the model's own fields around the block. -/
theorem Effect.apply_frame (f : Effect) (s : State) : (f.apply s).cfg = s.cfg ∧ (f.apply s).irqEn = s.irqEn ∧
    (f.apply s).rounds = s.rounds ∧ (f.apply s).cmd = s.cmd ∧ (f.apply s).schedule = s.schedule ∧
    (f.apply s).response = s.response ∧ (f.apply s).faulted = s.faulted := by
  cases f <;> exact ⟨rfl, rfl, rfl, rfl, rfl, rfl, rfl⟩

namespace Effect.OwnedBy

variable {i : Instr} {s : State} {f : Effect} (h : f.OwnedBy i s)
include h

/-- The registers outside the "writes" column are kept (rule R85). -/
theorem get_of_not_mem {r : OpReg} (hr : r ∉ writesOf i) : (f.apply s).regs.get r = s.regs.get r := by
  cases f with
  | search en e => rfl
  | commit ws en => exact get_apply_other ws _ r fun w hw heq => hr (heq ▸ h.1 w hw)
  | commitPrime b en =>
    obtain rfl : i = .mrtest := h
    exact get_set_other (by simpa [writesOf] using hr) _ _
  | fail code en => rfl

/-- The latches of the command are kept (assumption log 10). -/
theorem latches : (f.apply s).eng.op = s.eng.op ∧ (f.apply s).eng.bitlen = s.eng.bitlen := by
  cases f with
  | search en e => exact ⟨h.2.1, h.2.2.1⟩
  | commit ws en => exact ⟨rfl, rfl⟩
  | commitPrime b en => exact ⟨rfl, rfl⟩
  | fail code en => exact ⟨rfl, rfl⟩

/-- ENG.kg_p is KEYGEN's (rule R37). -/
theorem kgP (hi : ∀ L, i ≠ .keygen L) : (f.apply s).eng.kgP = s.eng.kgP := by
  cases f with
  | search en e =>
    obtain ⟨_, _, _, hkgP, _⟩ := h
    exact hkgP.resolve_right fun ⟨L, hL⟩ => hi L hL
  | commit ws en => rfl
  | commitPrime b en => rfl
  | fail code en => rfl

/-- A command that draws nothing leaves the entropy source (rule R11). -/
theorem entropy (hi : ¬ DrawsEntropy i) : (f.apply s).entropy = s.entropy := by
  cases f with
  | search en e =>
    obtain ⟨_, _, _, _, hen⟩ := h
    exact hen.resolve_right hi
  | commit ws en => exact h.2.resolve_right hi
  | commitPrime b en => exact absurd (.inr (.inr h)) hi
  | fail code en => exact h.resolve_right hi

/-- A command that does not search completes (rule R200). -/
theorem done (hi : searches i = false) (s' : State) : (f.apply s').status.done = true := by
  cases f with
  | search en e => simp [h.1] at hi
  | commit ws en => rfl
  | commitPrime b en => rfl
  | fail code en => rfl

end Effect.OwnedBy

/-- Settles O10: the step is an effect of the command's own, and PRIME is MRTEST's. -/
theorem commandsWriteOnlyTheirRegisters : Obligations.CommandsWriteOnlyTheirRegisters := by
  intro i s t h
  obtain ⟨f, hown, hf⟩ := exec_hasEffect i s
  have hprime := fun hi : i ≠ .mrtest => exec_prime hi h
  rw [hf s (.refl i s)] at h
  cases h
  obtain ⟨hop, hbl⟩ := hown.latches
  obtain ⟨hcfg, hirq, hrounds, hcmd, hsched, hresp, hfault⟩ := f.apply_frame s
  refine ⟨fun r => hown.get_of_not_mem, hprime, hown.kgP, fun ⟨hg, hk, hm⟩ => hown.entropy ?_, hop, hbl, hcfg, hirq,
    hrounds, hcmd, hsched, hresp, hfault⟩
  rintro (⟨L, hL⟩ | ⟨L, hL⟩ | hmr)
  · exact hg L hL
  · exact hk L hL
  · exact hm hmr

/-- The same held writes leave a register the same in two register files, or do not touch it. -/
theorem get_apply_agree (ws : List (OpReg × Nat)) (rs rs' : Regs) (r : OpReg) :
    (rs'.apply ws).get r = (rs.apply ws).get r ∨
      ((rs.apply ws).get r = rs.get r ∧ (rs'.apply ws).get r = rs'.get r) := by
  induction ws generalizing rs rs' with
  | nil => exact .inr ⟨rfl, rfl⟩
  | cons w ws ih =>
    rw [apply_cons, apply_cons]
    rcases ih (rs.set w.1 w.2) (rs'.set w.1 w.2) with hsame | ⟨hkeep, hkeep'⟩
    · exact .inl hsame
    · rw [hkeep, hkeep']
      by_cases hr : r = w.1
      · subst hr; exact .inl (by rw [get_set_same, get_set_same])
      · exact .inr ⟨get_set_other hr _ _, get_set_other hr _ _⟩

/-- An effect does the same to two states that differ in their registers only. -/
theorem Effect.apply_withRegs (f : Effect) (s : State) (rs : Regs) :
    (f.apply { s with regs := rs }).status = (f.apply s).status ∧ (f.apply { s with regs := rs }).eng = (f.apply s).eng ∧
    (f.apply { s with regs := rs }).entropy = (f.apply s).entropy ∧
    ∀ r, (f.apply { s with regs := rs }).regs.get r = (f.apply s).regs.get r ∨
      ((f.apply s).regs.get r = s.regs.get r ∧ (f.apply { s with regs := rs }).regs.get r = rs.get r) := by
  cases f with
  | search en e => exact ⟨rfl, rfl, rfl, fun r => .inr ⟨rfl, rfl⟩⟩
  | commit ws en => exact ⟨rfl, rfl, rfl, get_apply_agree ws _ _⟩
  | commitPrime b en => exact ⟨rfl, rfl, rfl, get_apply_agree [(.R, b.toNat)] _ _⟩
  | fail code en => exact ⟨rfl, rfl, rfl, fun r => .inr ⟨rfl, rfl⟩⟩

/-- Settles O11: both states give the command the same inputs, so one effect is the step of both. -/
theorem commandsReadOnlyTheirRegisters : Obligations.CommandsReadOnlyTheirRegisters := by
  intro i s rs hreads
  obtain ⟨f, _, hf⟩ := exec_hasEffect i s
  exact ⟨_, _, hf s (.refl i s), hf _ ⟨rfl, rfl, rfl, rfl, hreads⟩, f.apply_withRegs s rs⟩

end Sys2Proof.Machine
end

section
/-! The host's programs, operation by operation: a word write, a poll that matches and one that does not; then `LDB` word by
word, and `RUN` in its four steps (`30_encoding.md` rules R89, R90). -/

namespace Sys2Proof.Machine

open Sys2Proof.Claims

/-- A scheduled host write that is answered (rules R57, R89). -/
theorem step_hostWrite {s u : State} {off : Nat} {data : Word} {rest : List Event} (hoff : off < 0x4000)
    (hsched : s.schedule = hostWrite s.cfg off data :: rest) (h : memWrite off data { s with schedule := rest } = .ok u) :
    step s = .next { u with response := some .written } := by
  rw [step_cons hsched]
  exact congrArg _ (transact_write_ok (s := { s with schedule := rest }) hoff h)

/-- A scheduled poll whose read is answered: it goes on after the read, or polls again after an engine step (rule R89). -/
theorem step_hostPoll {s : State} {off : Nat} {mask value w : Word} {rest : List Event} (hoff : off < 0x4000)
    (hsched : s.schedule = hostPoll s.cfg off mask value :: rest)
    (h : memRead off { s with schedule := rest } = .ok w) :
    step s = .next { s with
      response := some (.data w),
      schedule := if w &&& mask = value then rest else .engine :: hostPoll s.cfg off mask value :: rest } := by
  have hread : transact (.read (s.cfg.base + off) .word) { s with schedule := rest } =
      { s with schedule := rest, response := some (.data w) } := by
    rw [transact_read_inside (s := { s with schedule := rest }) hoff]
    simp [answerRead, h]
  rw [step_cons hsched, hostPoll, perform, pollStep, hread]
  by_cases hw : w &&& mask = value <;> simp [hw]

/-! ### LDB -/

/-- A literal's value is its residue modulo 2^W, whatever its sign (rules R12, R90). -/
theorem literal_eq {c : Config} {value : Int} (hlo : -(2 ^ (c.W - 1) : Int) ≤ value) (hhi : value < 2 ^ c.W) :
    literal c value = some (value % 2 ^ c.W).toNat := by
  rw [literal, if_pos ⟨hlo, hhi⟩]
  split
  next hnn => rw [Int.emod_eq_of_lt hnn hhi]
  next => rfl

/-- A scheduled write of word `k` of a register of an idle block (rules R56, R89). -/
theorem step_writeWord {s : State} (hc : s.cfg.wf) (hbusy : s.status.busy = false) {r : OpReg} {k : Nat}
    (hk : k < s.cfg.nw) {data : Word} {rest : List Event} (hsched : s.schedule = hostWrite s.cfg (regOffset r k) data :: rest) :
    step s = .next { s with
      regs := s.regs.set r (putWord (s.regs.get r) k data), schedule := rest, response := some .written } := by
  have hindex := index_le r
  have hnw : s.cfg.nw ≤ 128 := hc.2.1
  exact step_hostWrite (by unfold regOffset; omega) hsched
    (memWrite_word (s := { s with schedule := rest }) hc hbusy r hk data)

/-- What is left to write of a register's `NW` words before word `k`. -/
theorem loadWords_drop {c : Config} {k : Nat} (hk : k < c.nw) (r : OpReg) (v : Nat) :
    (loadWords c r v).drop k =
      hostWrite c (regOffset r k) (BitVec.ofNat 32 (wordOf v k)) :: (loadWords c r v).drop (k + 1) := by
  rw [List.drop_eq_getElem_cons (by simpa [loadWords] using hk)]
  simp [loadWords]

/-- Two values agree on their lowest `k + 1` words if they agree on the lowest `k` and on word `k`. -/
theorem mod_words_succ {u v k : Nat} (hlow : u % 2 ^ (32 * k) = v % 2 ^ (32 * k)) (hword : wordOf u k = wordOf v k) :
    u % 2 ^ (32 * (k + 1)) = v % 2 ^ (32 * (k + 1)) := by
  rw [two_pow_word_succ, Nat.mod_mul, Nat.mod_mul, hlow]
  exact congrArg (fun w => _ + _ * w) hword

/-- After the first `k` writes of `LDB` the register fits and its lowest `k` words are the value's; nothing else of the block
changed (rule R90). -/
theorem runSteps_loadWords {s : State} (hi : Inv s) (hbusy : s.status.busy = false) (r : OpReg) (v : Nat)
    (rest : List Event) (k : Nat) (hk : k ≤ s.cfg.nw) :
    ∃ u resp, u < 2 ^ s.cfg.W ∧ u % 2 ^ (32 * k) = v % 2 ^ (32 * k) ∧ (0 < k → resp = some .written) ∧
      runSteps k { s with schedule := loadWords s.cfg r v ++ rest } =
        .next { s with regs := s.regs.set r u, schedule := (loadWords s.cfg r v).drop k ++ rest, response := resp } := by
  induction k with
  | zero => exact ⟨s.regs.get r, s.response, hi.fits r, by simp [Nat.mod_one], by simp, by rw [set_get_self]; rfl⟩
  | succ k ih =>
    obtain ⟨u, resp, hfits, hlow, _, hrun⟩ := ih (by omega)
    have hstep := step_writeWord (s := { s with
        regs := s.regs.set r u, schedule := (loadWords s.cfg r v).drop k ++ rest, response := resp })
      hi.params hbusy hk (by rw [loadWords_drop hk, List.cons_append])
    simp only [get_set_same, set_set] at hstep
    refine ⟨putWord u k (BitVec.ofNat 32 (wordOf v k)), some .written, putWord_lt hfits hk _, mod_words_succ ?_ ?_,
      fun _ => rfl, runSteps_snoc k hrun hstep⟩
    · rw [putWord_mod_low, hlow]
    · rw [wordOf_putWord_same, ofNat_wordOf_toNat]

/-- Settles O53: after all NW writes the register agrees with the literal's value on every word, and both fit. -/
theorem loadOperandProgramLoadsTheValue : Obligations.LoadOperandProgramLoadsTheValue := by
  intro s r value rest hi hbusy hlo hhi
  have hfits : (value % 2 ^ s.cfg.W).toNat < 2 ^ s.cfg.W := tcW_lt s.cfg.W value
  refine ⟨_, by rw [ldb, literal_eq hlo hhi]; rfl, ?_⟩
  obtain ⟨u, resp, hu, hmod, hresp, hrun⟩ :=
    runSteps_loadWords hi hbusy r (value % 2 ^ s.cfg.W).toNat rest s.cfg.nw le_rfl
  rw [show 32 * s.cfg.nw = s.cfg.W from rfl, Nat.mod_eq_of_lt hu, Nat.mod_eq_of_lt hfits] at hmod
  rw [hrun, hmod, hresp hi.params.1, List.drop_of_length_le (by simp [loadWords]), List.nil_append]

/-! ### RUN -/

/-- A poll of STATUS for DONE matches exactly when DONE is set (rules R30, R90). -/
theorem statusWord_and_done (st : Status) : st.word &&& 0x2 = 0x2 ↔ st.done = true := by
  obtain ⟨_, hdone, _⟩ := statusWord_fields st
  rw [show (0x2 : Word) = BitVec.twoPow 32 1 from rfl, BitVec.and_twoPow, hdone]
  cases st.done <;> decide

/-- A command that does not search has an encoding: it takes no BITLEN (rule R83). -/
theorem wellFormed_of_not_searches {i : Instr} (h : searches i = false) : WellFormed i := by
  cases i with
  | genprime _ => cases h
  | keygen _ => cases h
  | gcd | egcd | modinv | mrtest | modpow | encrypt | decrypt | decryptCrt => rfl

/-- The block of `s`, with another schedule and another last answer to the host. -/
def State.withHost (s : State) (sched : List Event) (resp : Option Response) : State :=
  { s with schedule := sched, response := resp }

/-- An effect is on the block: it does not see the schedule, nor the last answer. -/
theorem Effect.apply_withHost (f : Effect) (s : State) (sched : List Event) (resp : Option Response) :
    f.apply (s.withHost sched resp) = (f.apply s).withHost sched resp := by
  cases f <;> rfl

/-- Acceptance is on the block: it does not see the schedule, nor the last answer. -/
theorem acceptCommand_withHost (w : Word) (s : State) (sched : List Event) (resp : Option Response) :
    acceptCommand w (s.withHost sched resp) = (acceptCommand w s).withHost sched resp := by
  unfold acceptCommand
  split <;> rfl

/-- A scheduled CMD write to an idle block: its word is accepted (rules R29, R201). -/
theorem step_writeCmd {s : State} (hbusy : s.status.busy = false) (w : Word) (rest : List Event) (resp : Option Response) :
    step (s.withHost (hostWrite s.cfg 0x014 w :: rest) resp) =
      .next ((acceptCommand w s).withHost rest (some .written)) := by
  rw [step_hostWrite (s := s.withHost _ _) (u := (acceptCommand w s).withHost rest resp) (by decide) rfl]
  · rfl
  · rw [← acceptCommand_withHost]
    exact memWrite_cmd_idle (s := s.withHost rest resp) hbusy w

/-- A scheduled poll of STATUS for DONE (rules R89, R90). -/
theorem step_pollDone (s : State) (rest : List Event) (resp : Option Response) :
    step (s.withHost (hostPoll s.cfg 0x018 0x2 0x2 :: rest) resp) =
      .next (s.withHost (if s.status.done then rest else .engine :: hostPoll s.cfg 0x018 0x2 0x2 :: rest)
        (some (.data s.status.word))) := by
  rw [step_hostPoll (s := s.withHost _ _) (by decide) rfl (memRead_status _)]
  simp only [State.withHost, statusWord_and_done]

/-- A scheduled engine step after an accepted command is the command's effect, whatever the host did in between. -/
theorem step_engine_accepted {w : Word} {i : Instr} {s : State} {f : Effect} (hd : decode w = .legal i)
    (hf : ∀ s', SameInputs i (acceptCommand w s) s' → exec i s' = .next (f.apply s')) (rest : List Event)
    (resp : Option Response) :
    step ((acceptCommand w s).withHost (.engine :: rest) resp) =
      .next ((f.apply (acceptCommand w s)).withHost rest resp) :=
  calc step ((acceptCommand w s).withHost (.engine :: rest) resp)
    _ = engineStep ((acceptCommand w s).withHost rest resp) :=
      step_cons (s := (acceptCommand w s).withHost (.engine :: rest) resp) rfl
    _ = exec i ((acceptCommand w s).withHost rest resp) := by
      rw [← acceptCommand_withHost, engineStep_acceptCommand hd]
    _ = .next (f.apply ((acceptCommand w s).withHost rest resp)) := hf _ ⟨rfl, rfl, rfl, rfl, fun _ _ => rfl⟩
    _ = .next ((f.apply (acceptCommand w s)).withHost rest resp) := by rw [Effect.apply_withHost]

/-- Settles O54: the CMD write, a poll that reads BUSY, the command's own step, and a poll that reads DONE. -/
theorem runProgramWaitsForTheCommand : Obligations.RunProgramWaitsForTheCommand := by
  intro s i rest hi hbusy hsearch
  have hd := decode_encode (wellFormed_of_not_searches hsearch)
  obtain ⟨f, hown, hf⟩ := exec_hasEffect i (acceptCommand (encode i) s)
  obtain ⟨hcfg, _, _, hcmd, _⟩ := f.apply_frame (acceptCommand (encode i) s)
  have hdone := hown.done hsearch (acceptCommand (encode i) s)
  have hrunning : (acceptCommand (encode i) s).status.done = false := by rw [acceptCommand_status_legal hd]; rfl
  have hwrite := step_writeCmd hbusy (encode i) (hostPoll s.cfg 0x018 0x2 0x2 :: rest) s.response
  have hmiss := step_pollDone (acceptCommand (encode i) s) rest (some .written)
  have hengine := step_engine_accepted hd hf (hostPoll s.cfg 0x018 0x2 0x2 :: rest)
    (some (.data (acceptCommand (encode i) s).status.word))
  have hmatch := step_pollDone (f.apply (acceptCommand (encode i) s)) rest
    (some (.data (acceptCommand (encode i) s).status.word))
  simp only [hcfg, acceptCommand_cfg, hrunning, hdone] at hmiss hmatch
  have hrun := (runSteps_succ 3 hwrite).trans ((runSteps_succ 2 hmiss).trans
    ((runSteps_succ 1 hengine).trans (runSteps_succ 0 hmatch)))
  exact ⟨_, _, hf _ (.refl _ _), hrun, rfl, rfl, hdone, rfl, rfl, hcmd.trans (acceptCommand_cmd _ _)⟩

end Sys2Proof.Machine
end

section
/-! The extended_euclidean_gcd unit: the functions of `40_euclid.md` rules R100, R102 and R104, and what GCD, EGCD and MODINV
do with them. -/

namespace Sys2Proof.Machine

open Sys2Proof.Claims

/-- The shared commit is the one the claims write out (rule R203). -/
theorem complete_eq_commit (ws : List (OpReg × Nat)) (s : State) : complete ws s = commit (s.regs.apply ws) s := rfl

/-- The shared error completion is the one the claims write out (rule R204). -/
theorem raiseErr_eq_failure (code : ErrCode) (s : State) : raiseErr code s = failure code s := rfl

/-! ### GCD -/

/-- Settles O12: the loop computes `Nat.gcd`, and a greatest common divisor keeps its operands' strict bound. -/
theorem gcdAlgorithm : Obligations.GcdAlgorithm := by
  refine ⟨gcdF_zero, gcdF_zero 0, gcdF_step, fun a b => ?_, fun W a b ha hb => ?_⟩ <;> rw [gcdF_eq_gcd]
  · exact Nat.lt_succ_iff.mp (gcd_lt (Nat.lt_succ_of_le (le_max_left a b)) (Nat.lt_succ_of_le (le_max_right a b)))
  · exact gcd_lt ha hb

/-- Settles O13: GCD commits `gcdF` of its operands, which is their greatest common divisor. -/
theorem gcdCommitsTheGreatestCommonDivisor : Obligations.GcdCommitsTheGreatestCommonDivisor := by
  intro s
  rw [← gcdF_eq_gcd]
  exact congrArg Host.Outcome.next (complete_eq_commit _ s)

/-! ### EGCD -/

/-- Settles O14, by the equations of `egcdF`. -/
theorem egcdAlgorithm : Obligations.EgcdAlgorithm := by
  refine ⟨egcdF_zero, fun a b g x1 y1 hb hrec => ?_, fun a b g x y h => ?_, by decide⟩
  · rw [egcdF_step a b hb, hrec]
  · have hbez := egcdF_bezout a b
    have hgcd := egcdF_fst a b
    rw [h] at hbez hgcd
    exact ⟨hbez, hgcd.trans (gcdF_eq_gcd a b).symm⟩

/-- EGCD's step: g, and the two's complement of the coefficients (rule R103). -/
theorem exec_egcd (s : State) : exec .egcd s = .next (commit
    (((s.regs.set .R (Nat.gcd (s.regs.get .A) (s.regs.get .B))).set .X
        (tcW s.cfg.W (egcdF (s.regs.get .A) (s.regs.get .B)).2.1)).set .Y
        (tcW s.cfg.W (egcdF (s.regs.get .A) (s.regs.get .B)).2.2)) s) := by
  rw [← egcdF_fst]
  exact congrArg Host.Outcome.next (complete_eq_commit _ s)

/-- Settles O15: the coefficients are those of `egcdF`, whose first component is the greatest common divisor. -/
theorem egcdCommitsGAndCoefficients : Obligations.EgcdCommitsGAndCoefficients := by
  intro s
  have hfst := egcdF_fst (s.regs.get .A) (s.regs.get .B)
  have hbez := egcdF_bezout (s.regs.get .A) (s.regs.get .B)
  rw [hfst] at hbez
  exact ⟨_, _, Prod.ext hfst rfl, hbez, exec_egcd s⟩

/-- Once `b` divides `a` the recursion ends one level down. -/
theorem egcdF_of_dvd {a b : Nat} (hb : b ≠ 0) (hd : b ∣ a) : egcdF a b = (b, 0, 1) := by
  rw [egcdF_step a b hb, Nat.mod_eq_zero_of_dvd hd, egcdF_zero]
  simp

/-- A multiple of `g` is 0, `g` itself, or at least twice `g`. -/
theorem multiple_cases {g r : Nat} (h : g ∣ r) : r = 0 ∨ r = g ∨ 2 * g ≤ r := by
  obtain ⟨k, rfl⟩ := h
  match k with
  | 0 => exact .inl (Nat.mul_zero g)
  | 1 => exact .inr (.inl (Nat.mul_one g))
  | k + 2 => exact .inr (.inr (by rw [Nat.mul_comm]; exact Nat.mul_le_mul_left g (by omega)))

/-- The magnitude of the coefficient `x - q * y` of rule R102, from those of `x` and `y`. -/
theorem natAbs_sub_mul_bound {c r b q : Nat} {x y : Int} (hx : c * x.natAbs ≤ r) (hy : c * y.natAbs ≤ b) :
    c * (x - (q : Int) * y).natAbs ≤ r + b * q :=
  calc c * (x - (q : Int) * y).natAbs
    _ ≤ c * (x.natAbs + q * y.natAbs) := by
      refine Nat.mul_le_mul_left c ((Int.natAbs_sub_le _ _).trans_eq ?_)
      rw [Int.natAbs_mul, Int.natAbs_natCast]
    _ = c * x.natAbs + c * y.natAbs * q := by ring
    _ ≤ r + b * q := Nat.add_le_add hx (Nat.mul_le_mul_right q hy)

/-- Rule R106's bound. Where the remainder is at least twice the greatest common divisor the maxima of the level below are its
own operands; where it is 0 or the divisor itself the recursion ends within two levels. -/
theorem egcdF_coefficients_bound {a b : Nat} (hg : 0 < Nat.gcd a b) :
    2 * Nat.gcd a b * (egcdF a b).2.1.natAbs ≤ max (2 * Nat.gcd a b) b ∧
      2 * Nat.gcd a b * (egcdF a b).2.2.natAbs ≤ max (2 * Nat.gcd a b) a := by
  induction b using Nat.strong_induction_on generalizing a with
  | _ b ih =>
    by_cases hb : b = 0
    · subst hb
      simp [egcdF_zero]
    have hlt : a % b < b := Nat.mod_lt a (Nat.pos_of_ne_zero hb)
    have hgcd : Nat.gcd b (a % b) = Nat.gcd a b := by rw [Nat.gcd_comm b, ← Nat.gcd_rec, Nat.gcd_comm]
    have hgb : Nat.gcd a b ∣ b := Nat.gcd_dvd_right a b
    have hdiv : a % b + b * (a / b) = a := Nat.mod_add_div a b
    have hih := ih (a % b) hlt (a := b) (hgcd ▸ hg)
    rw [hgcd] at hih
    obtain ⟨hx, hy⟩ := hih
    generalize Nat.gcd a b = g at *
    rcases multiple_cases (hgcd ▸ Nat.gcd_dvd_right b (a % b) : g ∣ a % b) with hr | hr | hr
    · rw [egcdF_of_dvd hb (Nat.dvd_of_mod_eq_zero hr)]
      simp
    · have hb2 : 2 * g ≤ b := by rcases multiple_cases hgb with h | h | h <;> omega
      rw [egcdF_step a b hb, hr, egcdF_of_dvd hg.ne' hgb]
      have hq : 2 * g * (0 - ((a / b : Nat) : Int) * 1).natAbs ≤ 0 + b * (a / b) :=
        natAbs_sub_mul_bound (by simp) (by simpa)
      simp only [Int.natAbs_one, Nat.mul_one]
      omega
    · rw [max_eq_right (by omega)] at hx hy
      rw [egcdF_step a b hb]
      have hq := natAbs_sub_mul_bound (q := a / b) hx hy
      simp only
      omega

/-- Two's complement of width n + 1 is exact on magnitudes below 2^n (rule R12). -/
theorem sextW_tcW {n : Nat} {v : Int} (hv : v.natAbs < 2 ^ n) : sextW (n + 1) (tcW (n + 1) v) = v := by
  have hpow : (2 : Int) ^ (n + 1) = 2 * (2 ^ n : Nat) := by rw [pow_succ]; push_cast; ring
  rw [sextW, tcW, Nat.add_sub_cancel, hpow]
  generalize 2 ^ n = m at *
  rcases le_or_gt 0 v with hsign | hsign
  · rw [Int.emod_eq_of_lt hsign (by omega), if_pos (by omega)]
    omega
  · rw [← Int.add_emod_right, Int.emod_eq_of_lt (by omega) (by omega), if_neg (by omega)]
    omega

/-- A coefficient within rule R106's bound for an operand of n + 1 bits has a magnitude below 2^n. -/
theorem natAbs_lt_of_bound {g k b n : Nat} (hg : 0 < g) (hk : 2 * g * k ≤ max (2 * g) b) (hb : b < 2 ^ (n + 1))
    (hn : 1 ≤ n) : k < 2 ^ n := by
  rcases le_max_iff.mp hk with h | h
  · have hk1 : k ≤ 1 := Nat.le_of_mul_le_mul_left (by omega) (show 0 < 2 * g by omega)
    exact hk1.trans_lt (Nat.one_lt_two_pow (by omega))
  · have h2k : k ≤ g * k := Nat.le_mul_of_pos_left k hg
    rw [Nat.mul_assoc] at h
    rw [pow_succ] at hb
    omega

/-- EGCD's coefficients fit the signed range of operands of `n + 1` bits that are not both 0 (rule R106). -/
theorem egcdF_coefficients_fit {a b n : Nat} (hg : 0 < Nat.gcd a b) (ha : a < 2 ^ (n + 1)) (hb : b < 2 ^ (n + 1))
    (hn : 1 ≤ n) : (egcdF a b).2.1.natAbs < 2 ^ n ∧ (egcdF a b).2.2.natAbs < 2 ^ n := by
  obtain ⟨hx, hy⟩ := egcdF_coefficients_bound hg
  exact ⟨natAbs_lt_of_bound hg hx hb hn, natAbs_lt_of_bound hg hy ha hn⟩

/-- Settles O16: the coefficients fit, so they read back as they are; for A = B = 0 any coefficients are a Bézout pair. -/
theorem egcdCoefficientsReadBackExactly : Obligations.EgcdCoefficientsReadBackExactly := by
  refine ⟨fun a b hg => egcdF_coefficients_bound hg, fun s t hi h => ?_⟩
  rw [exec_egcd] at h
  cases h
  simp only [commit, get_set_same, get_set_other (show OpReg.X ≠ .Y by decide),
    get_set_other (show OpReg.R ≠ .Y by decide), get_set_other (show OpReg.R ≠ .X by decide)]
  rcases Nat.eq_zero_or_pos (Nat.gcd (s.regs.get .A) (s.regs.get .B)) with hg | hg
  · obtain ⟨hA, hB⟩ := Nat.gcd_eq_zero_iff.mp hg
    simp [hA, hB]
  · obtain ⟨n, hn⟩ : ∃ n, s.cfg.W = n + 1 := ⟨s.cfg.W - 1, by have := one_le_width hi.params; omega⟩
    have hn1 : 1 ≤ n := by
      have := hi.params.1
      simp only [Config.W] at hn
      omega
    obtain ⟨hx, hy⟩ := egcdF_coefficients_fit hg (hn ▸ hi.fits .A) (hn ▸ hi.fits .B) hn1
    rw [hn, sextW_tcW hx, sextW_tcW hy, egcdF_bezout, egcdF_fst]

/-! ### MODINV -/

/-- The inverse is one, as a congruence, for every modulus of at least 1 (rule R104). -/
theorem mul_modinvF_modEq {a m : Nat} (hm : 0 < m) (hg : Nat.gcd a m = 1) : a * modinvF a m ≡ 1 [MOD m] := by
  have hbez := egcdF_bezout a m
  rw [egcdF_fst, hg] at hbez
  rw [← Int.natCast_modEq_iff, Nat.cast_mul, modinvF_cast a hm, ← hbez]
  calc (a : Int) * ((egcdF a m).2.1 % m)
    _ ≡ a * (egcdF a m).2.1 [ZMOD m] := Int.ModEq.mul_left _ (Int.mod_modEq _ _)
    _ ≡ a * (egcdF a m).2.1 + m * (egcdF a m).2.2 [ZMOD m] := Int.modEq_iff_dvd.mpr ⟨_, add_sub_cancel_left _ _⟩

/-- Settles O17: two inverses below the modulus are congruent, so equal. -/
theorem modinvIsTheUniqueInverse : Obligations.ModinvIsTheUniqueInverse := by
  intro a m hm hg
  rw [gcdF_eq_gcd] at hg
  have hlt := modinvF_lt a hm
  have hinv := mul_modinvF_modEq hm hg
  refine ⟨modinvF_cast a hm, hlt, by omega, fun h2 => ⟨?_, fun t ht hta => ?_⟩⟩
  · rw [hinv, Nat.mod_eq_of_lt h2]
  · have hta' : a * t ≡ 1 [MOD m] := hta.trans (Nat.mod_eq_of_lt h2).symm
    have hcongr := Nat.ModEq.cancel_left_of_coprime (Nat.gcd_comm m a ▸ hg) (hta'.trans hinv.symm)
    exact hcongr.eq_of_lt_of_lt ht hlt

/-- MODINV's step: DIVZERO, then NOINV, else the commit of the inverse (rules R105, R206). -/
theorem execModinv_cases (s : State) :
    (s.regs.get .M = 0 ∧ execModinv s = .next (raiseErr .divzero s)) ∨
    (s.regs.get .M ≠ 0 ∧ Nat.gcd (s.regs.get .A) (s.regs.get .M) ≠ 1 ∧ execModinv s = .next (raiseErr .noinv s)) ∨
    (s.regs.get .M ≠ 0 ∧ Nat.gcd (s.regs.get .A) (s.regs.get .M) = 1 ∧
      execModinv s = .next (complete [(.R, modinvF (s.regs.get .A) (s.regs.get .M))] s)) := by
  unfold execModinv
  rw [gcdF_eq_gcd]
  by_cases hM : s.regs.get .M = 0
  · exact .inl ⟨hM, if_pos hM⟩
  · by_cases hg : Nat.gcd (s.regs.get .A) (s.regs.get .M) = 1
    · exact .inr (.inr ⟨hM, hg, by rw [if_neg hM, if_neg (not_not_intro hg)]⟩)
    · exact .inr (.inl ⟨hM, hg, by rw [if_neg hM, if_pos hg]⟩)

/-- Settles O18: each clause is one case of MODINV's step; the value committed is `modinvF`. -/
theorem modinvCommitsTheInverseOrFails : Obligations.ModinvCommitsTheInverseOrFails := by
  intro s
  rcases execModinv_cases s with ⟨hM, h⟩ | ⟨hM, hg, h⟩ | ⟨hM, hg, h⟩
  · rw [raiseErr_eq_failure] at h
    exact ⟨fun _ => h, fun hM' => absurd hM hM', fun hM' => absurd hM hM'⟩
  · rw [raiseErr_eq_failure] at h
    exact ⟨fun hM' => absurd hM' hM, fun _ _ => h, fun _ hg' => absurd hg' hg⟩
  · rw [complete_eq_commit] at h
    have hpos := Nat.pos_of_ne_zero hM
    exact ⟨fun hM' => absurd hM' hM, fun _ hg' => absurd hg hg',
      fun _ _ => ⟨_, modinvF_lt _ hpos, mul_modinvF_modEq hpos hg, h⟩⟩

end Sys2Proof.Machine
end

section
/-! RSA by the direct path: a valid key's exponents undo each other (`44_rsa_crypt.md` rules R180, R181). -/

namespace Sys2Proof.Machine

/-- Fermat's little theorem for every base: an exponent that is 1 modulo p - 1 leaves it. -/
theorem pow_modEq_self_of_dvd {p k : Nat} (hp : p.Prime) (hdvd : p - 1 ∣ k - 1) (hk : 1 ≤ k) (a : Nat) :
    a ^ k ≡ a [MOD p] := by
  rw [← Int.natCast_modEq_iff]
  simpa using Int.ModEq.pow_eq_pow hp hdvd hk one_pos a

/-- Modulo a product of two distinct primes, an exponent that is 1 modulo (p - 1)(q - 1) leaves every base. -/
theorem pow_modEq_self_of_modEq {p q k : Nat} (hp : p.Prime) (hq : q.Prime) (hne : p ≠ q)
    (hk : k ≡ 1 [MOD (p - 1) * (q - 1)]) (hpos : 1 ≤ k) (a : Nat) : a ^ k ≡ a [MOD p * q] := by
  have hdvd : (p - 1) * (q - 1) ∣ k - 1 := (Nat.modEq_iff_dvd' hpos).mp hk.symm
  exact (Nat.modEq_and_modEq_iff_modEq_mul ((Nat.coprime_primes hp hq).mpr hne)).mp
    ⟨pow_modEq_self_of_dvd hp (dvd_of_mul_right_dvd hdvd) hpos a,
      pow_modEq_self_of_dvd hq (dvd_of_mul_left_dvd hdvd) hpos a⟩

/-- ENCRYPT and DECRYPT with a nonzero modulus commit to R the power whose exponent the register `key` holds. -/
theorem unitDirect_of_pos {key : OpReg} {s : State} (hN : 0 < s.regs.get .N) (hkey : 0 < s.regs.get key) :
    unitDirect key s = complete [(.R, s.regs.get .A ^ s.regs.get key % s.regs.get .N)] s := by
  rw [unitDirect, if_neg hN.ne', modpowF_pos _ hkey hN]

/-- Settles O25: E * D is 1 modulo (p - 1)(q - 1), so the second power of the first is the unit itself. -/
theorem decryptUndoesEncrypt : Obligations.DecryptUndoesEncrypt := by
  intro s p q hp hq hne hN hphi hgcd hD hA
  have hNpos : 0 < s.regs.get .N := by rw [hN]; exact Nat.mul_pos hp.pos hq.pos
  have hED := mul_modinvF_modEq (Nat.zero_lt_of_lt hphi) hgcd
  rw [← hD] at hED
  have hEDpos : 0 < s.regs.get .E * s.regs.get .D := by
    rw [Nat.pos_iff_ne_zero]
    intro h0
    rw [h0, Nat.ModEq, Nat.zero_mod, Nat.mod_eq_of_lt hphi] at hED
    omega
  refine ⟨_, _, congrArg Host.Outcome.next (unitDirect_of_pos (key := .E) hNpos (Nat.pos_of_mul_pos_right hEDpos)),
    congrArg Host.Outcome.next (unitDirect_of_pos (key := .D) hNpos (Nat.pos_of_mul_pos_left hEDpos)), ?_⟩
  change (s.regs.get .A ^ s.regs.get .E % s.regs.get .N) ^ s.regs.get .D % s.regs.get .N = s.regs.get .A
  rw [← Nat.pow_mod, ← pow_mul, hN, pow_modEq_self_of_modEq hp hq hne hED hEDpos, Nat.mod_eq_of_lt hA]

end Sys2Proof.Machine
end

section
/-! One round of the Miller-Rabin test in terms of powers (`41_primality.md` rule R120): what the model's loops answer is
`StrongLiar`, and which witnesses are strong liars (rules R122, R124). -/

namespace Sys2Proof.Machine

open Sys2Proof.Claims

/-! ### The model's round -/

/-- The inner loop's squarings are the powers whose exponents are powers of 2. -/
theorem reachesMinusOne_iff (k x n : Nat) :
    reachesMinusOne k x n = true ↔ ∃ j, j < k ∧ x ^ 2 ^ (j + 1) % n = n - 1 := by
  induction k generalizing x with
  | zero => simp [reachesMinusOne]
  | succ k ih =>
    have hsquare (j : Nat) : (x * x % n) ^ 2 ^ (j + 1) % n = x ^ 2 ^ (j + 1 + 1) % n := by
      rw [← Nat.pow_mod, ← pow_two, ← pow_mul, ← pow_succ']
    rw [Nat.exists_lt_succ_left, zero_add, pow_one, pow_two, reachesMinusOne]
    split
    next hfirst => simp [hfirst]
    next hfirst => simp [hfirst, ih, hsquare]

/-- Of two products of a power of 2 with an odd number that are equal, neither has the higher power. -/
theorem le_of_two_pow_mul_eq {r r' s s' : Nat} (h : 2 ^ r * s = 2 ^ r' * s') (hs' : s' % 2 = 1) : r ≤ r' := by
  have hcop : Nat.Coprime (2 ^ r) s' := (Nat.coprime_two_left.mpr (Nat.odd_iff.mpr hs')).pow_left r
  exact Nat.pow_dvd_pow_iff_le_right'.mp (hcop.dvd_of_dvd_mul_right (h ▸ Nat.dvd_mul_right _ s))

/-- The split of n - 1 into a power of 2 and an odd part is unique, so `StrongLiar` is about any of them. -/
theorem strongLiar_iff {n s r : Nat} (hsplit : n - 1 = 2 ^ r * s) (hodd : s % 2 = 1) (a : Nat) :
    StrongLiar n a ↔ a ^ s % n = 1 ∨ ∃ j, j < r ∧ a ^ (2 ^ j * s) % n = n - 1 := by
  refine ⟨?_, fun h => ⟨s, r, hsplit, hodd, h⟩⟩
  rintro ⟨s', r', hsplit', hodd', h⟩
  have heq : 2 ^ r' * s' = 2 ^ r * s := hsplit'.symm.trans hsplit
  obtain rfl : r' = r := Nat.le_antisymm (le_of_two_pow_mul_eq heq hodd) (le_of_two_pow_mul_eq heq.symm hodd')
  obtain rfl : s' = s := Nat.eq_of_mul_eq_mul_left (Nat.two_pow_pos r') heq
  exact h

/-- A round passes exactly on the strong liars. -/
theorem witnessPasses_iff {n : Nat} (h3 : 3 ≤ n) (hodd : n % 2 = 1) (a : Nat) :
    witnessPasses n (oddPart n).1 (oddPart n).2 a = true ↔ StrongLiar n a := by
  obtain ⟨hsplit, hs, hr⟩ := oddPart_spec h3 hodd
  rw [strongLiar_iff hsplit hs]
  obtain ⟨r, hr'⟩ := Nat.exists_eq_add_of_le' hr
  have hx : modpowF a (oddPart n).1 n = a ^ (oddPart n).1 % n := modpowF_pos a (by omega) (by omega)
  have hpow (j : Nat) : (a ^ (oddPart n).1 % n) ^ 2 ^ j % n = a ^ (2 ^ j * (oddPart n).1) % n := by
    rw [← Nat.pow_mod, ← pow_mul, mul_comm]
  simp only [witnessPasses, hx, hr', Nat.add_sub_cancel, Nat.exists_lt_succ_left, ← hpow, pow_zero, pow_one, Nat.mod_mod]
  split
  next hpass => simpa [or_assoc] using Or.inl hpass
  next hfail => rw [reachesMinusOne_iff]; simp [not_or.mp hfail]

/-! ### Which witnesses are strong liars -/

/-- A number that leaves 1 is the residue 1. -/
theorem mod_eq_one_iff_zmod {n : Nat} (h2 : 2 ≤ n) (v : Nat) : v % n = 1 ↔ (v : ZMod n) = 1 := by
  simpa [Nat.mod_eq_of_lt h2] using (ZMod.natCast_eq_natCast_iff' v 1 n).symm

/-- n - 1 is the residue -1. -/
theorem pred_cast_zmod {n : Nat} (h2 : 2 ≤ n) : ((n - 1 : Nat) : ZMod n) = -1 := by
  simp [Nat.cast_sub (one_le_two.trans h2)]

/-- A number that leaves n - 1 is the residue -1. -/
theorem mod_eq_pred_iff_zmod {n : Nat} (h2 : 2 ≤ n) (v : Nat) : v % n = n - 1 ↔ (v : ZMod n) = -1 := by
  rw [← pred_cast_zmod h2, ZMod.natCast_eq_natCast_iff', Nat.mod_eq_of_lt (by omega : n - 1 < n)]

/-- Rule R122: the witness n - 1 passes, for its odd powers are -1. -/
theorem strongLiar_pred {n : Nat} (h3 : 3 ≤ n) (hodd : n % 2 = 1) : StrongLiar n (n - 1) := by
  obtain ⟨hsplit, hs, hr⟩ := oddPart_spec h3 hodd
  refine (strongLiar_iff hsplit hs _).mpr (.inr ⟨0, hr, ?_⟩)
  rw [mod_eq_pred_iff_zmod (by omega), Nat.cast_pow, pred_cast_zmod (by omega), pow_zero, one_mul,
    (Nat.odd_iff.mpr hs).neg_one_pow]

/-- In a ring without zero divisors, repeated squaring that ends at 1 starts at 1 or passes through -1. -/
theorem eq_one_or_exists_pow_eq_neg_one {R : Type} [CommRing R] [NoZeroDivisors R] {x : R} {r : Nat}
    (h : x ^ 2 ^ r = 1) : x = 1 ∨ ∃ j, j < r ∧ x ^ 2 ^ j = -1 := by
  induction r with
  | zero => exact .inl (by simpa using h)
  | succ r ih =>
    rw [pow_succ, pow_mul, pow_two, mul_self_eq_one_iff] at h
    rcases h with h | h
    · exact (ih h).imp_right fun ⟨j, hj, hpow⟩ => ⟨j, by omega, hpow⟩
    · exact .inr ⟨r, by omega, h⟩

/-- Rule R124: for a prime every witness passes, by Fermat's little theorem. -/
theorem strongLiar_of_prime {n a : Nat} (hn : n.Prime) (h3 : 3 ≤ n) (hodd : n % 2 = 1) (hpos : 0 < a) (hlt : a < n) :
    StrongLiar n a := by
  have : Fact n.Prime := ⟨hn⟩
  obtain ⟨hsplit, hs, _⟩ := oddPart_spec h3 hodd
  have hne : (a : ZMod n) ≠ 0 := fun h =>
    absurd ((ZMod.natCast_eq_zero_iff a n).mp h) (Nat.not_dvd_of_pos_of_lt hpos hlt)
  have hfermat : ((a : ZMod n) ^ (oddPart n).1) ^ 2 ^ (oddPart n).2 = 1 := by
    rw [← pow_mul, mul_comm, ← hsplit, ZMod.pow_card_sub_one_eq_one hne]
  rw [strongLiar_iff hsplit hs]
  simp only [mod_eq_one_iff_zmod hn.two_le, mod_eq_pred_iff_zmod hn.two_le, mul_comm _ (oddPart n).1, pow_mul,
    Nat.cast_pow]
  exact eq_one_or_exists_pow_eq_neg_one hfermat

/-- Rule R124: a prime divisor of an odd n is no strong liar for it: neither 1 nor -1 is a multiple of it modulo n. -/
theorem not_strongLiar_of_dvd {n p : Nat} (hp : p.Prime) (hdvd : p ∣ n) (h3 : 3 ≤ n) : ¬ StrongLiar n p := by
  rintro ⟨s, r, hsplit, hs, h⟩
  have hmod {k v : Nat} (hk : k ≠ 0) (h : p ^ k % n = v) : p ∣ v :=
    h ▸ (Nat.dvd_mod_iff hdvd).mpr (dvd_pow_self p hk)
  rcases h with h | ⟨j, _, h⟩
  · exact hp.one_lt.not_ge (Nat.le_of_dvd one_pos (hmod (by omega) h))
  · have hpred : p ∣ n - 1 := hmod (Nat.mul_ne_zero (Nat.two_pow_pos j).ne' (by omega)) h
    have hone : p ∣ 1 := (Nat.dvd_add_right hpred).mp (by rwa [Nat.sub_add_cancel (by omega)])
    exact hp.one_lt.not_ge (Nat.le_of_dvd one_pos hone)

end Sys2Proof.Machine
end

section
/-! MRTEST (`41_primality.md` rules R120 to R125): the test's answer is that of the witnesses drawn. -/

namespace Sys2Proof.Machine

open Sys2Proof.Claims

/-! ### The witnesses -/

/-- A witness lies from 2 to n - 1 (rule R122). -/
theorem witnessAt_mem {n : Nat} (h3 : 3 ≤ n) (en : Entropy) (k : Nat) :
    2 ≤ witnessAt n en k ∧ witnessAt n en k ≤ n - 1 := intoRange_mem _ (by omega)

/-- The first witness is that of the next draw. -/
theorem witnessAt_zero (n : Nat) (en : Entropy) : witnessAt n en 0 = (en.draw 2 (n - 1)).1 := rfl

/-- The later witnesses are those drawn after the first. -/
theorem witnessAt_succ (n : Nat) (en : Entropy) (k : Nat) : witnessAt n en (k + 1) = witnessAt n en.advance k := rfl

/-- Every value of the range is the witness drawn from a source that has it lined up there. -/
theorem witnessAt_of_getElem? {n v : Nat} (h2 : 2 ≤ v) (hlt : v ≤ n - 1) {queue : List Nat} {k : Nat}
    (h : queue[k]? = some v) (taken : Nat) : witnessAt n { queue := queue, taken := taken } k = v := by
  induction k generalizing queue taken with
  | zero =>
    obtain ⟨rest, rfl⟩ : ∃ rest, queue = v :: rest := by cases queue <;> simp_all
    exact draw_cons_fst h2 hlt rest taken
  | succ k ih => exact ih (queue := queue.tail) (by rw [List.getElem?_tail, h]) (taken + 1)

/-! ### The test -/

theorem mrF_two (rounds : Nat) (en : Entropy) : mrF 2 rounds en = (true, en) := rfl

theorem mrF_odd {n : Nat} (h3 : 3 ≤ n) (hodd : n % 2 = 1) (rounds : Nat) (en : Entropy) :
    mrF n rounds en = mrRounds rounds n (oddPart n).1 (oddPart n).2 en := by
  rw [mrF, if_neg (by omega), if_neg (by omega), if_neg (by omega)]

/-- The rounds answer 1 exactly when every one of them passes on the witness drawn for it. -/
theorem mrRounds_iff (k n s r : Nat) (en : Entropy) :
    (mrRounds k n s r en).1 = true ↔ ∀ i, i < k → witnessPasses n s r (witnessAt n en i) = true := by
  induction k generalizing en with
  | zero => simp [mrRounds]
  | succ k ih =>
    rw [Nat.forall_lt_succ_left, witnessAt_zero, mrRounds]
    split
    next hpass => simp only [draw_snd, ih, witnessAt_succ, hpass, true_and]
    next hfail => exact iff_of_false Bool.false_ne_true fun hall => hfail hall.1

/-- Rules R121, R123: the answers that need no draw. -/
theorem mrF_without_draws {n rounds : Nat} (h : n ≤ 2 ∨ n % 2 = 0 ∨ rounds = 0) (en : Entropy) :
    mrF n rounds en = (decide (n = 2 ∨ (3 ≤ n ∧ n % 2 = 1)), en) := by
  rcases mrF_cases n rounds en with ⟨_, heq⟩ | ⟨h2, heq⟩ | ⟨_, heven, heq⟩ | ⟨h3, hodd, heq⟩ <;> rw [heq]
  · rw [decide_eq_false (by omega)]
  · rw [decide_eq_true (.inl h2)]
  · rw [decide_eq_false (by omega)]
  · obtain rfl : rounds = 0 := by omega
    rw [decide_eq_true (.inr ⟨h3, hodd⟩), mrRounds]

/-- Rule R124 for an odd number: the test answers 1 exactly when every witness drawn is a strong liar. -/
theorem mrF_odd_iff {n : Nat} (h3 : 3 ≤ n) (hodd : n % 2 = 1) (rounds : Nat) (en : Entropy) :
    (mrF n rounds en).1 = true ↔ ∀ k, k < rounds → StrongLiar n (witnessAt n en k) := by
  simp only [mrF_odd h3 hodd, mrRounds_iff, witnessPasses_iff h3 hodd]

/-- The test of an odd number that answers 1 drew a witness in every round. -/
theorem mrF_odd_taken {n : Nat} (h3 : 3 ≤ n) (hodd : n % 2 = 1) {rounds : Nat} {en : Entropy}
    (h : (mrF n rounds en).1 = true) : (mrF n rounds en).2.taken = en.taken + rounds := by
  rw [mrF_odd h3 hodd] at h ⊢
  exact (mrRounds_taken ..).2.2 h

/-- Rule R124: the test of a prime answers 1, whatever it draws. -/
theorem mrF_prime {n : Nat} (hn : n.Prime) (rounds : Nat) (en : Entropy) : (mrF n rounds en).1 = true := by
  rcases hn.eq_two_or_odd with rfl | hodd
  · rw [mrF_two]
  · have h3 : 3 ≤ n := by have := hn.two_le; omega
    rw [mrF_odd_iff h3 hodd]
    intro k _
    obtain ⟨h2, hle⟩ := witnessAt_mem h3 en k
    exact strongLiar_of_prime hn h3 hodd (by omega) (by omega)

/-! ### The command -/

/-- MRTEST's commit (rule R125). -/
theorem exec_mrtest (s : State) : exec .mrtest s = .next (completePrime (mrF (s.regs.get .A) s.rounds.toNat s.entropy).1
    { s with entropy := (mrF (s.regs.get .A) s.rounds.toNat s.entropy).2 }) := rfl

/-- The answer MRTEST leaves in R. -/
@[simp] theorem completePrime_get_R (b : Bool) (s : State) : (completePrime b s).regs.get .R = b.toNat :=
  get_set_same s.regs .R b.toNat

/-- Settles O27: MRTEST's commit, written out, with the test's bounds on its draws. -/
theorem mrtestCommitsItsAnswer : Obligations.MrtestCommitsItsAnswer := fun s =>
  have ⟨hge, hle⟩ := mrF_taken (s.regs.get .A) s.rounds.toNat s.entropy
  ⟨_, _, rfl, exec_mrtest s, hge, hle⟩

/-- Settles O28, by the test's cases: an odd number gets there without draws only when it has no round. -/
theorem mrtestAnswersWithoutDraws : Obligations.MrtestAnswersWithoutDraws := by
  intro s hA
  have hrounds : s.rounds = 0 → s.rounds.toNat = 0 := congrArg BitVec.toNat
  refine ⟨_, exec_mrtest s, ?_⟩
  rw [mrF_without_draws (hA.imp_right (Or.imp_right hrounds))]
  exact ⟨rfl, decide_eq_true_iff, completePrime_get_R _ _⟩

/-- Settles O29, by the odd case of the test. -/
theorem mrtestPassesIffEveryWitnessPasses : Obligations.MrtestPassesIffEveryWitnessPasses := by
  intro s h3 hodd
  refine ⟨_, exec_mrtest s, ?_, ?_⟩ <;> rw [completePrime_get_R, Bool.toNat_eq_one]
  · exact mrF_odd_iff h3 hodd _ _
  · exact mrF_odd_taken h3 hodd

/-- Settles O30: a source that gives n - 1 in every round, and one that first gives the least prime divisor. -/
theorem mrtestAdmitsBothAnswers : Obligations.MrtestAdmitsBothAnswers := by
  refine ⟨fun n => strongLiar_pred, fun s h3 hodd => ?_, fun s h9 hodd hcomp hrounds => ?_⟩
  · refine ⟨List.replicate s.rounds.toNat (s.regs.get .A - 1), _, exec_mrtest _, ?_⟩
    rw [completePrime_get_R, Bool.toNat_eq_one, mrF_odd_iff h3 hodd]
    intro k hk
    rw [witnessAt_of_getElem? (by omega) le_rfl (by simp [hk])]
    exact strongLiar_pred h3 hodd
  · have hprime : (s.regs.get .A).minFac.Prime := Nat.minFac_prime (by omega)
    have hlt : (s.regs.get .A).minFac < s.regs.get .A := (Nat.not_prime_iff_minFac_lt (by omega)).mp hcomp
    refine ⟨[(s.regs.get .A).minFac], _, exec_mrtest _, ?_⟩
    rw [completePrime_get_R, Bool.toNat_eq_zero, ← Bool.not_eq_true, mrF_odd_iff (by omega) hodd]
    intro hall
    have hfirst := hall 0 (Nat.pos_of_ne_zero fun h0 => hrounds (BitVec.eq_of_toNat_eq h0))
    rw [witnessAt_of_getElem? hprime.two_le (by omega) rfl] at hfirst
    exact not_strongLiar_of_dvd hprime (Nat.minFac_dvd _) (by omega) hfirst

/-- Settles O31, by the test of a prime. -/
theorem mrtestNeverRejectsAPrime : Obligations.MrtestNeverRejectsAPrime := by
  intro s hprime
  have hpass := mrF_prime hprime s.rounds.toNat s.entropy
  exact ⟨_, exec_mrtest s, by rw [completePrime_get_R, hpass]; rfl, hpass, rfl⟩

end Sys2Proof.Machine
end

section
/-! GENPRIME (`41_primality.md` rules R126, R127, R129): the attempt in terms of its draw and its test, and what a passing
attempt commits. -/

namespace Sys2Proof.Machine

open Sys2Proof.Claims

/-! ### The attempt -/

/-- An attempt's answer is the test's of its candidate, after the candidate's draw (rule R126). -/
theorem attempt_passed_eq (L rounds : Nat) (en : Entropy) :
    (attempt L rounds en).passed = (mrF (attempt L rounds en).candidate rounds en.advance).1 := rfl

theorem attempt_entropy_eq (L rounds : Nat) (en : Entropy) :
    (attempt L rounds en).entropy = (mrF (attempt L rounds en).candidate rounds en.advance).2 := rfl

/-- An attempt, from its draw and its test. -/
theorem attempt_of_draw {L rounds c : Nat} {en en' en'' : Entropy} {b : Bool}
    (hdraw : en.draw 0 (2 ^ L - 1) = (c, en')) (htest : mrF c rounds en' = (b, en'')) :
    attempt L rounds en = { candidate := c, passed := b, entropy := en'' } := by
  simp only [attempt, hdraw, htest]

/-- The candidate 2 passes (rule R121). -/
theorem attempt_passed_of_two {L rounds : Nat} {en : Entropy} (h : (en.draw 0 (2 ^ L - 1)).1 = 2) :
    (attempt L rounds en).passed = true := by
  rw [attempt_of_draw (Prod.ext h rfl) (mrF_two rounds _)]

/-- The candidate 0 fails, without a witness (rule R121). -/
theorem attempt_of_zero {L rounds : Nat} {en : Entropy} (h : (en.draw 0 (2 ^ L - 1)).1 = 0) :
    attempt L rounds en = { candidate := 0, passed := false, entropy := en.advance } :=
  attempt_of_draw (Prod.ext h rfl) rfl

/-- Rule R128: a candidate of at most one bit fails, for it is below 2. -/
theorem attempt_fails_of_le_one {L : Nat} (hL : L ≤ 1) (rounds : Nat) (en : Entropy) :
    (attempt L rounds en).passed = false := by
  have hlt : (attempt L rounds en).candidate < 2 :=
    (attempt_candidate_lt L rounds en).trans_le (Nat.pow_le_pow_right (by decide) hL)
  by_contra hpass
  have := attempt_passed (Bool.not_eq_false _ ▸ hpass)
  omega

/-! ### The command's steps -/

section Steps

variable {L : Nat} {s : State}

theorem exec_genprime_badlen (hck : s.eng.checked = false) (hlen : s.cfg.W < L) :
    exec (.genprime L) s = .next (raiseErr .badlen s) := by simp [exec, execGenprime, hck, hlen]

theorem exec_genprime_check (hck : s.eng.checked = false) (hlen : L ≤ s.cfg.W) :
    exec (.genprime L) s = .next { s with eng := { s.eng with checked := true } } := by
  simp [exec, execGenprime, hck, hlen]

theorem exec_genprime_pass (hck : s.eng.checked = true) (hpass : (attempt L s.rounds.toNat s.entropy).passed = true) :
    exec (.genprime L) s = .next (complete [(.R, (attempt L s.rounds.toNat s.entropy).candidate)]
      { s with entropy := (attempt L s.rounds.toNat s.entropy).entropy }) := by
  simp [exec, execGenprime, genprimeAttempt, hck, hpass]

theorem exec_genprime_fail (hck : s.eng.checked = true) (hfail : (attempt L s.rounds.toNat s.entropy).passed = false) :
    exec (.genprime L) s = .next { s with entropy := (attempt L s.rounds.toNat s.entropy).entropy } := by
  simp [exec, execGenprime, genprimeAttempt, hck, hfail]

end Steps

/-- Settles O32: the four steps of GENPRIME, the attempt being the one of the given draw and test. -/
theorem genprimeChecksThenSearches : Obligations.GenprimeChecksThenSearches := by
  refine fun L s => ⟨exec_genprime_badlen, exec_genprime_check, fun hck c en b en' hdraw htest => ?_⟩
  have hattempt := attempt_of_draw hdraw htest
  constructor <;> rintro rfl
  · have h := exec_genprime_pass (L := L) hck (by rw [hattempt])
    rwa [hattempt] at h
  · have h := exec_genprime_fail (L := L) hck (by rw [hattempt])
    rwa [hattempt] at h

/-- Settles O33: of an attempt only the passing one ends the command, and R holds its candidate. -/
theorem genprimeResultIsAProbablePrime : Obligations.GenprimeResultIsAProbablePrime := by
  intro L s t hck h hended
  have hlt := attempt_candidate_lt L s.rounds.toNat s.entropy
  cases hpass : (attempt L s.rounds.toNat s.entropy).passed with
  | false =>
    rw [exec_genprime_fail hck hpass] at h
    cases h
    exact absurd hck (by simpa using hended)
  | true =>
    rw [exec_genprime_pass hck hpass] at h
    cases h
    have hprime := attempt_passed hpass
    rw [attempt_passed_eq] at hpass
    simp only [complete_regs, apply_cons, apply_nil, get_set_same, complete_entropy, attempt_entropy_eq]
    generalize (attempt L s.rounds.toNat s.entropy).candidate = c at *
    refine ⟨by omega, hlt, fun htwo => by rw [htwo, mrF_two]; rfl, fun hne => ?_⟩
    obtain ⟨h3, hodd⟩ := hprime.resolve_left hne
    exact ⟨hodd, mrF_odd_taken h3 hodd hpass, (mrF_odd_iff h3 hodd _ _).mp hpass⟩

end Sys2Proof.Machine
end

section
/-! The searches as runs (`41_primality.md` rule R128, `42_keygen.md` rule R146): GENPRIME and KEYGEN, step by step of the
machine, while nothing else is scheduled. -/

namespace Sys2Proof.Machine

open Sys2Proof.Claims

/-! ### The engine's command -/

/-- A command whose BITLEN fits its field has an encoding (rules R83, R88). -/
theorem wellFormed_of_bitlenOf_le {i : Instr} (h : bitlenOf i ≤ 65535) : WellFormed i := by
  cases i with
  | genprime _ => exact decide_eq_true h
  | keygen _ => exact decide_eq_true h
  | gcd | egcd | modinv | mrtest | modpow | encrypt | decrypt | decryptCrt => rfl

/-- The engine runs the command `i` and has every next step: its latches hold `i`, and nothing is scheduled. -/
structure Runs (i : Instr) (s : State) : Prop where
  sched : s.schedule = []
  running : s.eng.phase ≠ .idle
  op : s.eng.op.toNat = opcode i
  len : s.eng.bitlen.toNat = bitlenOf i

/-- The next step is the command's (rule R200). -/
theorem Runs.step_eq {i : Instr} {s : State} (h : Runs i s) : step s = exec i s := by
  have hword : s.eng.word = encode i := by rw [Engine.word, encode, h.op, h.len]
  have hlen : bitlenOf i ≤ 65535 := by have := s.eng.bitlen.isLt; rw [h.len] at this; omega
  rw [step_nil h.sched, engineStep_running h.running (hword ▸ decode_encode (wellFormed_of_bitlenOf_le hlen))]

theorem runs_genprime {s : State} (hsched : s.schedule = []) (hrun : s.eng.phase ≠ .idle) (hop : s.eng.op = 5) :
    Runs (.genprime s.eng.bitlen.toNat) s := ⟨hsched, hrun, by rw [hop]; rfl, rfl⟩

theorem runs_keygen {s : State} (hsched : s.schedule = []) (hrun : s.eng.phase ≠ .idle) (hop : s.eng.op = 6) :
    Runs (.keygen s.eng.bitlen.toNat) s := ⟨hsched, hrun, by rw [hop]; rfl, rfl⟩

/-- A command that goes on is still the one that runs: its latches are kept (rule R37). -/
theorem Runs.next {i : Instr} {s t : State} (h : Runs i s) (hexec : exec i s = .next t) (hrun : t.eng.phase ≠ .idle) :
    Runs i t := by
  obtain ⟨_, _, _, _, hop, hlen, _, _, _, _, hsched, _⟩ := commandsWriteOnlyTheirRegisters i s t hexec
  exact ⟨hsched.trans h.sched, hrun, by rw [hop, h.op], by rw [hlen, h.len]⟩

/-! ### KEYGEN's steps that only search -/

section Steps

variable {L : Nat} {s : State}

theorem exec_keygen_check (hrun : s.eng.phase = .run) (hck : s.eng.checked = false) (hpos : L ≠ 0) (hlen : L ≤ s.cfg.W) :
    exec (.keygen L) s = .next { s with eng := { s.eng with checked := true } } := by
  simp [exec, execKeygen, keygenCheck, hrun, hck, hpos, hlen]

theorem exec_keygen_fail (h : s.eng.phase = .kgQ ∨ s.eng.checked = true)
    (hfail : (attempt (L / 2) s.rounds.toNat s.entropy).passed = false) :
    exec (.keygen L) s = .next { s with entropy := (attempt (L / 2) s.rounds.toNat s.entropy).entropy } := by
  by_cases hq : s.eng.phase = .kgQ
  · simp [exec, execKeygen, keygenAttemptQ, hq, hfail]
  · simp [exec, execKeygen, keygenAttemptP, hq, h.resolve_left hq, hfail]

theorem exec_keygen_passP (hrun : s.eng.phase = .run) (hck : s.eng.checked = true)
    (hpass : (attempt (L / 2) s.rounds.toNat s.entropy).passed = true) :
    exec (.keygen L) s = .next { s with
      entropy := (attempt (L / 2) s.rounds.toNat s.entropy).entropy,
      eng := { s.eng with kgP := (attempt (L / 2) s.rounds.toNat s.entropy).candidate, phase := .kgQ } } := by
  simp [exec, execKeygen, keygenAttemptP, hrun, hck, hpass]

theorem exec_keygen_passQ (hq : s.eng.phase = .kgQ)
    (hpass : (attempt (L / 2) s.rounds.toNat s.entropy).passed = true) :
    exec (.keygen L) s = .next (keygenFinish s.eng.kgP (attempt (L / 2) s.rounds.toNat s.entropy).candidate
      { s with entropy := (attempt (L / 2) s.rounds.toNat s.entropy).entropy }) := by
  simp [exec, execKeygen, keygenAttemptQ, hq, hpass]

end Steps

/-! ### Both searches as one -/

/-- The bits of a search's candidates: BITLEN for GENPRIME (rule R126), half of it for KEYGEN (rule R140). -/
def searchBits : Instr → Nat
  | .genprime L => L
  | .keygen L => L / 2
  | .gcd | .egcd | .modinv | .mrtest | .modpow | .encrypt | .decrypt | .decryptCrt => 0

/-- The next step of `i` is an attempt of a search, not its BITLEN check (rule R200). -/
def Attempts (s : State) : Instr → Prop
  | .genprime _ => s.eng.checked = true
  | .keygen _ => s.eng.phase = .kgQ ∨ s.eng.checked = true
  | .gcd | .egcd | .modinv | .mrtest | .modpow | .encrypt | .decrypt | .decryptCrt => False

/-- A failed attempt moves the entropy source and nothing else (rules R127, R140). -/
theorem exec_failed_attempt {i : Instr} {s : State} (h : Attempts s i)
    (hfail : (attempt (searchBits i) s.rounds.toNat s.entropy).passed = false) :
    exec i s = .next { s with entropy := (attempt (searchBits i) s.rounds.toNat s.entropy).entropy } := by
  cases i with
  | genprime L => exact exec_genprime_fail h hfail
  | keygen L => exact exec_keygen_fail h hfail
  | gcd | egcd | modinv | mrtest | modpow | encrypt | decrypt | decryptCrt => exact h.elim

/-- A BITLEN check that admits the length is remembered, and nothing else (rules R127, R140; assumption log 3). -/
theorem exec_passed_check {i : Instr} {s : State} (hsearch : searches i = true) (hpos : i ≠ .keygen 0)
    (hlen : bitlenOf i ≤ s.cfg.W) (hrun : s.eng.phase = .run) (hck : s.eng.checked = false) :
    exec i s = .next { s with eng := { s.eng with checked := true } } := by
  cases i with
  | genprime L => exact exec_genprime_check hck hlen
  | keygen L => exact exec_keygen_check hrun hck (fun h => hpos (h ▸ rfl)) hlen
  | gcd | egcd | modinv | mrtest | modpow | encrypt | decrypt | decryptCrt => cases hsearch

/-- Rules R128, R146: while the source gives the candidate 0, each step is a failed attempt of one draw. -/
theorem runSteps_zero_candidates {i : Instr} {k : Nat} {s : State} (hruns : Runs i s) (hatt : Attempts s i)
    (hqueue : s.entropy.queue = List.replicate k 0) :
    runSteps k s = .next { s with entropy := { queue := [], taken := s.entropy.taken + k } } := by
  induction k generalizing s with
  | zero =>
    have hempty : s.entropy = { queue := [], taken := s.entropy.taken + 0 } :=
      congrArg (Entropy.mk · s.entropy.taken) hqueue
    rw [← hempty]
    rfl
  | succ k ih =>
    have hzero : (s.entropy.draw 0 (2 ^ searchBits i - 1)).1 = 0 := by
      rw [draw_fst, Entropy.next, hqueue, List.replicate_succ, intoRange_self le_rfl (Nat.zero_le _)]
    have hattempt := attempt_of_zero (rounds := s.rounds.toNat) hzero
    have hstep := hruns.step_eq.trans (exec_failed_attempt hatt (by rw [hattempt]))
    rw [hattempt] at hstep
    rw [runSteps_succ k hstep, ih (s := { s with entropy := s.entropy.advance })
      ⟨hruns.sched, hruns.running, hruns.op, hruns.len⟩ (by cases i <;> exact hatt)
      (by rw [advance_queue, hqueue, List.tail_replicate, Nat.add_sub_cancel])]
    simp only [advance_taken, Nat.add_right_comm, Nat.add_assoc]

/-- Settles O35: every attempt's candidate is 0, and fails. -/
theorem everySearchMayRunForever : Obligations.EverySearchMayRunForever := by
  intro s k hsched hsearch hqueue
  suffices h : ∃ i, Runs i s ∧ Attempts s i by
    obtain ⟨i, hruns, hatt⟩ := h
    exact ⟨_, runSteps_zero_candidates hruns hatt hqueue, rfl, rfl, rfl, rfl⟩
  rcases hsearch with ⟨hrun, hck, hop | hop⟩ | ⟨hq, hop⟩
  · exact ⟨_, runs_genprime hsched (by simp [hrun]) hop, hck⟩
  · exact ⟨_, runs_keygen hsched (by simp [hrun]) hop, .inr hck⟩
  · exact ⟨_, runs_keygen hsched (by simp [hq]) hop, .inl hq⟩

/-! ### A search from a state with the invariant -/

/-- A search with an admitted BITLEN runs, in a state with the invariant. -/
structure Searching (i : Instr) (s : State) : Prop extends Runs i s where
  inv : Inv s
  search : searches i = true
  nonzero : i ≠ .keygen 0
  fits : bitlenOf i ≤ s.cfg.W

/-- A search that goes on stays one. -/
theorem Searching.next {i : Instr} {s t : State} (h : Searching i s) (hexec : exec i s = .next t)
    (hrun : t.eng.phase ≠ .idle) : Searching i t := by
  have hcfg : t.cfg = s.cfg := by
    obtain ⟨_, _, _, _, _, _, hcfg, _⟩ := commandsWriteOnlyTheirRegisters i s t hexec
    exact hcfg
  exact { h.toRuns.next hexec hrun with
    inv := exec_keeps_inv h.inv h.running h.op.symm h.len.symm hexec
    search := h.search
    nonzero := h.nonzero
    fits := hcfg ▸ h.fits }

/-- While it searches the block is busy (rule R37). -/
theorem Searching.busy {i : Instr} {s : State} (h : Searching i s) : s.status.busy = true :=
  h.inv.busyIff.mpr h.running

/-- Past the check every step is an attempt. -/
theorem Searching.attempts {i : Instr} {s : State} (h : Searching i s) (hck : s.eng.checked = true) : Attempts s i := by
  have hsearch := h.search
  cases i with
  | genprime L => exact hck
  | keygen L => exact .inr hck
  | gcd | egcd | modinv | mrtest | modpow | encrypt | decrypt | decryptCrt => cases hsearch

/-- Before the check no search for q runs (rule R37). -/
theorem phase_of_unchecked {s : State} (hi : Inv s) (hrun : s.eng.phase ≠ .idle) (hck : s.eng.checked = false) :
    s.eng.phase = .run := by
  cases hphase : s.eng.phase with
  | idle => exact absurd hphase hrun
  | run => rfl
  | kgQ =>
    obtain ⟨_, hck', _⟩ := hi.holdsP hphase
    simp [hck] at hck'

/-- A step that is not a passing attempt leaves the search in its phase, and the host sees nothing of it (rule R218). -/
theorem Searching.step_of_not_passing {i : Instr} {s : State} (h : Searching i s)
    (hfail : s.eng.checked = true → (attempt (searchBits i) s.rounds.toNat s.entropy).passed = false) :
    ∃ t, step s = .next t ∧ Searching i t ∧ t.status = s.status ∧ t.regs = s.regs ∧ t.eng.phase = s.eng.phase := by
  rw [h.step_eq]
  cases hck : s.eng.checked with
  | false =>
    have hexec := exec_passed_check h.search h.nonzero h.fits (phase_of_unchecked h.inv h.running hck) hck
    exact ⟨_, hexec, h.next hexec h.running, rfl, rfl, rfl⟩
  | true =>
    have hexec := exec_failed_attempt (h.attempts hck) (hfail hck)
    exact ⟨_, hexec, h.next hexec h.running, rfl, rfl, rfl⟩

/-- Every admitted width takes a BITLEN of up to 32 bits (rule R6). -/
theorem le_width_of_le {c : Config} (hc : c.wf) {L : Nat} (hL : L ≤ 32) : L ≤ c.W := by
  have := hc.1
  simp only [Config.W]
  omega

/-- Rules R128, R146: a search for candidates of at most one bit never ends. -/
theorem runSteps_of_searchBits_le_one {i : Instr} {s : State} (h : Searching i s) (hbits : searchBits i ≤ 1) (k : Nat) :
    ∃ t, runSteps k s = .next t ∧ Searching i t ∧ t.status = s.status ∧ t.regs = s.regs := by
  induction k with
  | zero => exact ⟨s, rfl, h, rfl, rfl⟩
  | succ k ih =>
    obtain ⟨u, hu, hsearch, hstatus, hregs⟩ := ih
    obtain ⟨t, ht, hsearch', hstatus', hregs', _⟩ :=
      hsearch.step_of_not_passing fun _ => attempt_fails_of_le_one hbits _ _
    exact ⟨t, runSteps_snoc k hu ht, hsearch', hstatus'.trans hstatus, hregs'.trans hregs⟩

/-- Settles O34: BITLEN 0 and 1 of GENPRIME, and half of KEYGEN's 1, 2 and 3, leave candidates of at most one bit. -/
theorem degenerateLengthsNeverComplete : Obligations.DegenerateLengthsNeverComplete := by
  intro s hi hsched hrun hlen k
  suffices h : ∃ i, Searching i s ∧ searchBits i ≤ 1 by
    obtain ⟨i, hsearch, hbits⟩ := h
    obtain ⟨t, ht, hsearch', hstatus, hregs⟩ := runSteps_of_searchBits_le_one hsearch hbits k
    exact ⟨t, ht, hstatus, hsearch'.busy, hregs⟩
  rcases hlen with ⟨hop, hle⟩ | ⟨hop, hpos, hle⟩
  · exact ⟨_, { runs_genprime hsched hrun hop with
      inv := hi, search := rfl, nonzero := nofun, fits := le_width_of_le hi.params (hle.trans (by decide)) }, hle⟩
  · exact ⟨_, { runs_keygen hsched hrun hop with
      inv := hi, search := rfl, nonzero := mt Instr.keygen.inj (by omega),
      fits := le_width_of_le hi.params (hle.trans (by decide)) },
      by simp only [searchBits]; omega⟩

end Sys2Proof.Machine
end

section
/-! The searches under FAIR_ENTROPY (`92_eei_decisions.md` D18): a run that would search forever draws the candidate 2, which
passes. -/

namespace Sys2Proof.Machine

open Sys2Proof.Claims

/-- `n` steps, then `k` more. -/
theorem runSteps_add {n k : Nat} {s u t : State} (hn : runSteps n s = .next u) (hk : runSteps k u = .next t) :
    runSteps (n + k) s = .next t := by
  induction n generalizing s with
  | zero => cases hn; rwa [Nat.zero_add]
  | succ n ih =>
    cases hs : step s with
    | next s' =>
      rw [runSteps_succ _ hs] at hn
      rw [Nat.add_right_comm, runSteps_succ _ hs]
      exact ih hn
    | fault r => simp [runSteps, Host.Core.run, Sys2Proof.core, hs] at hn
    | refused r => simp [runSteps, Host.Core.run, Sys2Proof.core, hs] at hn

/-- A fair source ends a search: if every step from a state of `P` ends in `Q`, or stays in `P` without having drawn the
candidate `v`, then a run from `P` reaches `Q`. -/
theorem fair_run_reaches {P Q : State → Prop} {hi v : Nat} (hbusy : ∀ u, P u → u.status.busy = true)
    (hstep : ∀ u, P u → ∃ t, step u = .next t ∧
      (Q t ∨ P t ∧ ¬ (u.eng.checked = true ∧ (u.entropy.draw 0 hi).1 = v)))
    {s : State} (hs : P s) (hv : v ≤ hi) (hfair : FairEntropy s hi) : ∃ k t, runSteps k s = .next t ∧ Q t := by
  by_contra! hnever
  have hall (k : Nat) : ∃ u, runSteps k s = .next u ∧ P u := by
    induction k with
    | zero => exact ⟨s, rfl, hs⟩
    | succ k ih =>
      obtain ⟨u, hu, hPu⟩ := ih
      obtain ⟨t, ht, hQ | ⟨hPt, _⟩⟩ := hstep u hPu
      · exact absurd hQ (hnever _ _ (runSteps_snoc k hu ht))
      · exact ⟨t, runSteps_snoc k hu ht, hPt⟩
  choose run hrun hP using hall
  have hnext (k : Nat) : step (run k) = .next (run (k + 1)) := by
    obtain ⟨t, ht, _⟩ := hstep _ (hP k)
    rw [ht, ← runSteps_snoc k (hrun k) ht, hrun (k + 1)]
  obtain ⟨k, hdrawn⟩ := hfair run (Host.Outcome.next.inj (hrun 0)).symm hnext (fun k => hbusy _ (hP k)) v hv
  obtain ⟨t, ht, hQ | ⟨_, hmiss⟩⟩ := hstep _ (hP k)
  · exact hnever _ _ (runSteps_snoc k (hrun k) ht) hQ
  · exact hmiss hdrawn

/-- A search's step is a passing attempt, or it goes on in its phase without having drawn the candidate 2. -/
theorem Searching.step_cases {i : Instr} {s : State} (h : Searching i s) :
    (s.eng.checked = true ∧ (attempt (searchBits i) s.rounds.toNat s.entropy).passed = true) ∨
    ((∃ t, step s = .next t ∧ Searching i t ∧ t.eng.phase = s.eng.phase) ∧
      ¬ (s.eng.checked = true ∧ (s.entropy.draw 0 (2 ^ searchBits i - 1)).1 = 2)) := by
  by_cases hpass : s.eng.checked = true ∧ (attempt (searchBits i) s.rounds.toNat s.entropy).passed = true
  · exact .inl hpass
  · obtain ⟨t, ht, hsearch, _, _, hphase⟩ := h.step_of_not_passing fun hck => by simpa [hck] using hpass
    exact .inr ⟨⟨t, ht, hsearch, hphase⟩, fun ⟨hck, hdraw⟩ => hpass ⟨hck, attempt_passed_of_two hdraw⟩⟩

/-- A state whose command ended, without an error. -/
def Succeeded (t : State) : Prop := t.status.done = true ∧ t.status.err = false ∧ t.status.busy = false

/-- A state whose KEYGEN ended, with no error but EXPNOTINV. -/
def KeygenEnded (t : State) : Prop :=
  t.status.done = true ∧ t.status.busy = false ∧ (t.status.err = true → t.status.errcode = .expnotinv)

/-- KEYGEN's arithmetic ends the command (rule R140). -/
theorem keygenFinish_ended (p q : Nat) (s : State) : KeygenEnded (keygenFinish p q s) := by
  rcases keygenFinish_cases p q s with ⟨_, h⟩ | ⟨_, h⟩ <;> rw [h]
  · exact ⟨rfl, rfl, fun _ => rfl⟩
  · exact ⟨rfl, rfl, nofun⟩

/-- The candidate 2 is in the range of a search for candidates of two bits or more. -/
theorem two_le_of_bits {L : Nat} (h : 2 ≤ L) : 2 ≤ 2 ^ L - 1 := by
  have : 2 ^ 2 ≤ 2 ^ L := Nat.pow_le_pow_right (by decide) h
  omega

/-- GENPRIME's search ends in a commit. -/
theorem genprime_completes {L : Nat} (hL : 2 ≤ L) {s : State} (h : Searching (.genprime L) s)
    (hfair : FairEntropy s (2 ^ L - 1)) : ∃ k t, runSteps k s = .next t ∧ Succeeded t := by
  refine fair_run_reaches (P := Searching (.genprime L)) (fun u => Searching.busy) (fun u hu => ?_) h
    (two_le_of_bits hL) hfair
  rcases hu.step_cases with ⟨hck, hpass⟩ | ⟨⟨t, ht, hsearch, _⟩, hmiss⟩
  · exact ⟨_, hu.step_eq.trans (exec_genprime_pass hck hpass), .inl ⟨rfl, rfl, rfl⟩⟩
  · exact ⟨t, ht, .inr ⟨hsearch, hmiss⟩⟩

/-- KEYGEN's search for p ends in the search for q. -/
theorem keygen_finds_p {L : Nat} (hL : 2 ≤ L / 2) {s : State} (h : Searching (.keygen L) s) (hrun : s.eng.phase = .run)
    (hfair : FairEntropy s (2 ^ (L / 2) - 1)) :
    ∃ k t, runSteps k s = .next t ∧ Searching (.keygen L) t ∧ t.eng.phase = .kgQ := by
  refine fair_run_reaches (P := fun u => Searching (.keygen L) u ∧ u.eng.phase = .run) (fun u hu => hu.1.busy)
    (fun u ⟨hu, hrun⟩ => ?_) ⟨h, hrun⟩ (two_le_of_bits hL) hfair
  rcases hu.step_cases with ⟨hck, hpass⟩ | ⟨⟨t, ht, hsearch, hphase⟩, hmiss⟩
  · have hexec := exec_keygen_passP hrun hck hpass
    exact ⟨_, hu.step_eq.trans hexec, .inl ⟨hu.next hexec nofun, rfl⟩⟩
  · exact ⟨t, ht, .inr ⟨⟨hsearch, hphase.trans hrun⟩, hmiss⟩⟩

/-- KEYGEN's search for q ends the command. -/
theorem keygen_finds_q {L : Nat} (hL : 2 ≤ L / 2) {s : State} (h : Searching (.keygen L) s) (hq : s.eng.phase = .kgQ)
    (hfair : FairEntropy s (2 ^ (L / 2) - 1)) : ∃ k t, runSteps k s = .next t ∧ KeygenEnded t := by
  refine fair_run_reaches (P := fun u => Searching (.keygen L) u ∧ u.eng.phase = .kgQ) (fun u hu => hu.1.busy)
    (fun u ⟨hu, hq⟩ => ?_) ⟨h, hq⟩ (two_le_of_bits hL) hfair
  rcases hu.step_cases with ⟨_, hpass⟩ | ⟨⟨t, ht, hsearch, hphase⟩, hmiss⟩
  · exact ⟨_, hu.step_eq.trans (exec_keygen_passQ hq hpass), .inl (keygenFinish_ended _ _ _)⟩
  · exact ⟨t, ht, .inr ⟨⟨hsearch, hphase.trans hq⟩, hmiss⟩⟩

/-- KEYGEN ends from either of its searches, when the runs from every state it passes through are fair. -/
theorem keygen_completes {L : Nat} (hL : 2 ≤ L / 2) {s : State} (h : Searching (.keygen L) s)
    (hfair : ∀ n u, runSteps n s = .next u → FairEntropy u (2 ^ (L / 2) - 1)) :
    ∃ k t, runSteps k s = .next t ∧ KeygenEnded t := by
  cases hphase : s.eng.phase with
  | idle => exact absurd hphase h.running
  | run =>
    obtain ⟨n, u, hu, hsearch, hq⟩ := keygen_finds_p hL h hphase (hfair 0 s rfl)
    obtain ⟨k, t, ht, hended⟩ := keygen_finds_q hL hsearch hq (hfair n u hu)
    exact ⟨n + k, t, runSteps_add hu ht, hended⟩
  | kgQ => exact keygen_finds_q hL h hphase (hfair 0 s rfl)

/-- Settles O36: GENPRIME's one search, and KEYGEN's two in turn. -/
theorem searchesCompleteUnderFairEntropy : Obligations.SearchesCompleteUnderFairEntropy := by
  constructor
  · intro s hi hsched hrun hop hL hfits hfair
    exact genprime_completes hL { runs_genprime hsched (by simp [hrun]) hop with
      inv := hi, search := rfl, nonzero := nofun, fits := hfits } hfair
  · intro s hi hsched hrun hop hL hfits hfair
    exact keygen_completes (by omega) { runs_keygen hsched hrun hop with
      inv := hi, search := rfl, nonzero := mt Instr.keygen.inj (by omega), fits := hfits } hfair

end Sys2Proof.Machine
end

section
/-! KEYGEN (`42_keygen.md` rules R140 to R147): its searches in terms of draw and test, how the command ends, and what holds of
the key it commits. -/

namespace Sys2Proof.Machine

open Sys2Proof.Claims

/-! ### The searches -/

/-- KEYGEN's BITLEN check refuses 0 and what is above the width (rule R141). -/
theorem exec_keygen_badlen {L : Nat} {s : State} (hrun : s.eng.phase = .run) (hck : s.eng.checked = false)
    (hlen : L = 0 ∨ s.cfg.W < L) : exec (.keygen L) s = .next (raiseErr .badlen s) := by
  simp [exec, execKeygen, keygenCheck, hrun, hck, hlen]

/-- Settles O37: the check's two answers, and the attempts of the given draw and test. -/
theorem keygenChecksThenSearches : Obligations.KeygenChecksThenSearches := by
  refine fun L s => ⟨exec_keygen_badlen, fun hrun hck hpos hlen => exec_keygen_check hrun hck (by omega) hlen,
    fun c en b en' hdraw htest => ?_⟩
  have hattempt := attempt_of_draw hdraw htest
  have hfails (hb : b = false) (hsearch : s.eng.phase = .kgQ ∨ s.eng.checked = true) :
      exec (.keygen L) s = .next { s with entropy := en' } := by
    have h := exec_keygen_fail (L := L) hsearch (by rw [hattempt, hb])
    rwa [hattempt] at h
  refine ⟨fun hrun hck hb => ?_, fun _ hck hb => hfails hb (.inr hck), fun hq hb => hfails hb (.inl hq)⟩
  have h := exec_keygen_passP (L := L) hrun hck (by rw [hattempt, hb])
  rwa [hattempt] at h

/-- Rule R129 for an attempt: a candidate that passed is 2, or odd with every witness drawn for it a strong liar. -/
theorem attempt_passed_witnesses {L rounds : Nat} {en : Entropy} (h : (attempt L rounds en).passed = true) :
    (attempt L rounds en).candidate = 2 ∨ 3 ≤ (attempt L rounds en).candidate ∧
      (attempt L rounds en).candidate % 2 = 1 ∧
      ∀ k, k < rounds → StrongLiar (attempt L rounds en).candidate
        (witnessAt (attempt L rounds en).candidate en.advance k) := by
  refine (attempt_passed h).imp_right fun ⟨h3, hodd⟩ => ⟨h3, hodd, ?_⟩
  rw [attempt_passed_eq] at h
  exact (mrF_odd_iff h3 hodd _ _).mp h

/-- The search for p moves on to the search for q only by a passing attempt, whose candidate is held (rule R142). -/
theorem keygen_holds_passed_candidate {L : Nat} {s t : State} (hrun : s.eng.phase = .run)
    (h : exec (.keygen L) s = .next t) (hq : t.eng.phase = .kgQ) :
    (attempt (L / 2) s.rounds.toNat s.entropy).passed = true ∧
      t.eng.kgP = (attempt (L / 2) s.rounds.toNat s.entropy).candidate := by
  rcases execKeygen_cases L s with
    ⟨_, _, _, h'⟩ | ⟨_, _, _, _, h'⟩ | ⟨_, _, hpass, h'⟩ | ⟨hq', _, _⟩ | ⟨_, _, h'⟩
  · cases h'.symm.trans h
    simp at hq
  · cases h'.symm.trans h
    simp at hq
  · cases h'.symm.trans h
    exact ⟨hpass, rfl⟩
  · simp [hrun] at hq'
  · cases h'.symm.trans h
    simp [hrun] at hq

/-! ### The end of the command -/

/-- The search for q ends the command only by a passing attempt, with the key arithmetic on both candidates (rule R140). -/
theorem keygen_ends_on_passed_candidate {L : Nat} {s t : State} (hq : s.eng.phase = .kgQ)
    (h : exec (.keygen L) s = .next t) (hidle : t.eng.phase = .idle) :
    (attempt (L / 2) s.rounds.toNat s.entropy).passed = true ∧
      t = keygenFinish s.eng.kgP (attempt (L / 2) s.rounds.toNat s.entropy).candidate
        { s with entropy := (attempt (L / 2) s.rounds.toNat s.entropy).entropy } := by
  cases hpass : (attempt (L / 2) s.rounds.toNat s.entropy).passed with
  | true => exact ⟨rfl, (Host.Outcome.next.inj ((exec_keygen_passQ hq hpass).symm.trans h)).symm⟩
  | false =>
    cases (exec_keygen_fail (.inl hq) hpass).symm.trans h
    simp [hq] at hidle

/-- Rule R143: a factor shared by 65537 and phi ends the command in EXPNOTINV. -/
theorem keygenFinish_of_not_coprime {p q : Nat} (h : Nat.gcd 65537 ((p - 1) * (q - 1)) ≠ 1) (s : State) :
    keygenFinish p q s = failure .expnotinv s :=
  (keygenFinish_cases p q s).elim And.right fun ⟨hcoprime, _⟩ => absurd hcoprime h

/-- Rules R144, R145: with 65537 and phi coprime, the five registers of the key are committed together. -/
theorem keygenFinish_of_coprime {p q : Nat} (h : Nat.gcd 65537 ((p - 1) * (q - 1)) = 1) (s : State) :
    keygenFinish p q s = commit (((((s.regs.set .E 65537).set .N (p * q)).set .D
      (modinvF 65537 ((p - 1) * (q - 1)))).set .P p).set .Q q) s :=
  (keygenFinish_cases p q s).elim (fun ⟨hshared, _⟩ => absurd h hshared) And.right

/-- Settles O38: the q-attempt of the given draw and test passes, and the arithmetic has two ends. -/
theorem keygenCommitsTheKeyOrFails : Obligations.KeygenCommitsTheKeyOrFails := by
  intro L s q en en' hq _ hdraw htest
  have hattempt := attempt_of_draw hdraw htest
  have hexec := exec_keygen_passQ (L := L) hq (by rw [hattempt])
  rw [hattempt] at hexec
  exact ⟨fun hshared => by rw [hexec, keygenFinish_of_not_coprime hshared],
    fun hcoprime => by rw [hexec, keygenFinish_of_coprime hcoprime]⟩

/-- 65537 is prime (rule R143), so it shares a factor with phi exactly when it divides one of phi's two factors. -/
theorem gcd_65537_ne_one_iff (a b : Nat) : Nat.gcd 65537 (a * b) ≠ 1 ↔ 65537 ∣ a ∨ 65537 ∣ b := by
  have hprime : Nat.Prime 65537 := by norm_num
  rw [Ne, ← Nat.coprime_iff_gcd_eq_one, hprime.coprime_iff_not_dvd, not_not, hprime.dvd_mul]

/-- The key arithmetic raises EXPNOTINV exactly when 65537 and phi share a factor. -/
theorem keygenFinish_expnotinv_iff (p q : Nat) (s : State) :
    ((keygenFinish p q s).status.err = true ∧ (keygenFinish p q s).status.errcode = .expnotinv) ↔
      Nat.gcd 65537 ((p - 1) * (q - 1)) ≠ 1 := by
  by_cases hg : Nat.gcd 65537 ((p - 1) * (q - 1)) = 1
  · simp [keygenFinish_of_coprime hg, commit, hg]
  · simp [keygenFinish_of_not_coprime hg, Claims.failure, hg]

/-- Settles O39: the command ends in the key arithmetic, whose check is of a prime against a product. -/
theorem expnotinvIffADivisor : Obligations.ExpnotinvIffADivisor := by
  intro L s t _ hq h hidle
  obtain ⟨_, rfl⟩ := keygen_ends_on_passed_candidate hq h hidle
  exact (keygenFinish_expnotinv_iff _ _ _).trans (gcd_65537_ne_one_iff _ _)

/-! ### The key -/

/-- Rules R144, R147: the private exponent is reduced modulo phi and, when phi is not 1, inverts 65537. -/
theorem privateExponent_spec {phi : Nat} (hg : Nat.gcd 65537 phi = 1) :
    modinvF 65537 phi < phi ∧ (2 ≤ phi → 65537 * modinvF 65537 phi % phi = 1) ∧
      (phi = 1 → modinvF 65537 phi = 0) := by
  have hpos : 0 < phi := Nat.pos_of_ne_zero (by rintro rfl; simp at hg)
  obtain ⟨_, hlt, hone, hinv⟩ := modinvIsTheUniqueInverse 65537 phi hpos (by rw [gcdF_eq_gcd, hg])
  exact ⟨hlt, fun h2 => (hinv h2).1, hone⟩

/-- A KEYGEN that ended without an error found 65537 and phi coprime, and its registers hold the key (rule R145). -/
theorem keygenFinish_key {p q : Nat} {s : State} (herr : (keygenFinish p q s).status.err = false) :
    Nat.gcd 65537 ((p - 1) * (q - 1)) = 1 ∧
    (keygenFinish p q s).regs.get .E = 65537 ∧ (keygenFinish p q s).regs.get .N = p * q ∧
    (keygenFinish p q s).regs.get .D = modinvF 65537 ((p - 1) * (q - 1)) ∧
    (keygenFinish p q s).regs.get .P = p ∧ (keygenFinish p q s).regs.get .Q = q := by
  by_cases hg : Nat.gcd 65537 ((p - 1) * (q - 1)) = 1
  · rw [keygenFinish_of_coprime hg]
    exact ⟨hg, by simp [commit, get_set]⟩
  · simp [keygenFinish_of_not_coprime hg, Claims.failure] at herr

/-- N fits its register, for a commit keeps the invariant (rules R22, R147). -/
theorem keygen_N_lt {s t : State} (hi : Inv s) (hq : s.eng.phase = .kgQ)
    (h : exec (.keygen s.eng.bitlen.toNat) s = .next t) : t.regs.get .N < 2 ^ s.cfg.W := by
  obtain ⟨hop, _⟩ := hi.holdsP hq
  have hinv := exec_keeps_inv hi (by simp [hq]) (by rw [hop]; rfl) rfl h
  obtain ⟨_, _, _, _, _, _, hcfg, _⟩ := commandsWriteOnlyTheirRegisters _ s t h
  exact hcfg ▸ hinv.fits .N

/-- Settles O40: both candidates passed their attempt, p's being kept by the invariant, and the rest is the key arithmetic. -/
theorem keygenResultHasTheKeyProperties : Obligations.KeygenResultHasTheKeyProperties := by
  constructor
  · intro s t _ hrun h hq
    obtain ⟨hpass, hp⟩ := keygen_holds_passed_candidate hrun h hq
    rw [hp]
    exact ⟨attempt_candidate_lt _ _ _, attempt_passed_witnesses hpass⟩
  · intro s t hi hq h hidle herr
    obtain ⟨_, _, hplt, hp⟩ := hi.holdsP hq
    have hNlt := keygen_N_lt hi hq h
    obtain ⟨hpass, rfl⟩ := keygen_ends_on_passed_candidate hq h hidle
    obtain ⟨hcoprime, hE, hN, hD, hP, hQ⟩ := keygenFinish_key herr
    obtain ⟨hDlt, hinverse, hone⟩ := privateExponent_spec hcoprime
    rw [hN] at hNlt
    rw [hE, hN, hD, hP, hQ]
    exact ⟨rfl, rfl, hplt, attempt_candidate_lt _ _ _, hp, attempt_passed_witnesses hpass, rfl, hNlt, hcoprime, hDlt,
      hinverse, hone⟩

end Sys2Proof.Machine
end

section
/-! The modular power in closed form (`43_modexp.md` rule R161), and the commands that commit it: MODPOW (rule R162), ENCRYPT
and DECRYPT (`44_rsa_crypt.md` rules R180, R181). -/

namespace Sys2Proof.Machine

open Sys2Proof.Claims

/-- Rule R161 for every exponent: a zero exponent leaves the accumulator at 1, even for the modulus 1. -/
theorem modpowF_closed (b e : Nat) {m : Nat} (hm : 0 < m) : modpowF b e m = if e = 0 then 1 else b ^ e % m := by
  split
  next he => rw [he, modpowF_zero]
  next he => exact modpowF_pos b (Nat.pos_of_ne_zero he) hm

/-- Settles O19: the closed form for nonzero exponents, at the exponent 1 and at the modulus 1. -/
theorem modpowClosedForm : Obligations.ModpowClosedForm := by
  refine ⟨fun b m _ => modpowF_zero b m, fun b e m hm he => modpowF_pos b he hm, fun a n _ => modpowF_zero a n,
    fun a n hn => ?_, fun b e he => ?_⟩
  · rw [modpowF_pos a one_pos (Nat.zero_lt_of_lt hn), pow_one]
  · rw [modpowF_pos b he one_pos, Nat.mod_one]

/-- The commit that MODPOW, ENCRYPT and DECRYPT share: the power goes to R, and no other register changes. -/
theorem complete_modpowF (a e : Nat) {m : Nat} (hm : m ≠ 0) (s : State) :
    complete [(.R, modpowF a e m)] s = commit (s.regs.set .R (if e = 0 then 1 else a ^ e % m)) s := by
  rw [modpowF_closed a e (Nat.pos_of_ne_zero hm), complete_eq_commit, apply_cons, apply_nil]

/-- Settles O20: MODPOW's check decides between the error and the commit of the power. -/
theorem modpowCommitsThePower : Obligations.ModpowCommitsThePower := by
  intro s
  constructor <;> intro hM
  · exact (if_pos hM).trans (congrArg Host.Outcome.next (raiseErr_eq_failure _ s))
  · exact (if_neg hM).trans (congrArg Host.Outcome.next (complete_modpowF _ _ hM s))

/-- With a zero modulus the direct path fails, whichever register holds the exponent. -/
theorem unitDirect_of_zero (key : OpReg) {s : State} (hN : s.regs.get .N = 0) :
    unitDirect key s = failure .divzero s := by
  rw [unitDirect, if_pos hN, raiseErr_eq_failure]

/-- With a nonzero modulus the direct path commits the power whose exponent the register `key` holds. -/
theorem unitDirect_of_ne_zero (key : OpReg) {s : State} (hN : s.regs.get .N ≠ 0) :
    unitDirect key s = commit (s.regs.set .R
      (if s.regs.get key = 0 then 1 else s.regs.get .A ^ s.regs.get key % s.regs.get .N)) s := by
  rw [unitDirect, if_neg hN, complete_modpowF _ _ hN]

/-- Settles O21: both commands are the direct path, ENCRYPT with E and DECRYPT with D. -/
theorem directPathsCommitThePower : Obligations.DirectPathsCommitThePower := by
  intro s
  constructor <;> intro hN
  · exact ⟨congrArg Host.Outcome.next (unitDirect_of_zero .E hN), congrArg Host.Outcome.next (unitDirect_of_zero .D hN)⟩
  · exact ⟨congrArg Host.Outcome.next (unitDirect_of_ne_zero .E hN),
      congrArg Host.Outcome.next (unitDirect_of_ne_zero .D hN)⟩

end Sys2Proof.Machine
end

section
/-! The rsa_crt_decrypt_accelerator unit: units that wrap (`44_rsa_crypt.md` rule R182), the CRT formula as the recombination
of two residues (rules R183 to R185), and its agreement with the direct path (rule R186). -/

namespace Sys2Proof.Machine

open Sys2Proof.Claims

/-! ### Wrapping units -/

/-- The base counts modulo the modulus only. -/
theorem modpowF_mod_base (b e m : Nat) : modpowF (b % m) e m = modpowF b e m := by
  rw [modpowF, modpowF, Nat.mod_mod]

/-- With a nonzero modulus the direct path raises no error, and the unit in A counts modulo N only. -/
theorem unitDirect_wraps {key : OpReg} (hkey : key ≠ .A) {s : State} (hN : s.regs.get .N ≠ 0) :
    let u := unitDirect key { s with regs := s.regs.set .A (s.regs.get .A % s.regs.get .N) }
    (unitDirect key s).status.err = false ∧ u.status.err = false ∧ (unitDirect key s).regs.get .R = u.regs.get .R := by
  have hN' : (s.regs.set .A (s.regs.get .A % s.regs.get .N)).get .N = s.regs.get .N := get_set_other (by decide) _ _
  simp only [unitDirect, hN', if_neg hN, get_set_other hkey, get_set_same, modpowF_mod_base, complete_regs, apply_cons,
    apply_nil]
  exact ⟨rfl, rfl, trivial⟩

/-- Settles O22: both commands are the direct path, whose exponent register is not A. -/
theorem unitsWrapSilently : Obligations.UnitsWrapSilently := by
  rintro s i (rfl | rfl) hN
  · exact ⟨_, _, rfl, rfl, unitDirect_wraps (key := .E) (by decide) hN⟩
  · exact ⟨_, _, rfl, rfl, unitDirect_wraps (key := .D) (by decide) hN⟩

/-! ### The recombination -/

/-- The factor `h` of rule R184's formula, from the residues `m1` modulo `p` and `m2` modulo `q`. -/
def crtFactor (p q m1 m2 : Nat) : Nat := ((modinvF q p : Int) * ((m1 : Int) - (m2 : Int)) % (p : Int)).toNat

/-- Rule R184's formula before its last reduction. -/
def crtValue (p q m1 m2 : Nat) : Nat := m2 + crtFactor p q m1 m2 * q

theorem crtF_eq_crtValue (c d n p q : Nat) :
    crtF c d n p q = crtValue p q (modpowF c (d % (p - 1)) p) (modpowF c (d % (q - 1)) q) % n := rfl

theorem crtFactor_cast {p : Nat} (hp : 0 < p) (q m1 m2 : Nat) :
    (crtFactor p q m1 m2 : Int) = (modinvF q p : Int) * ((m1 : Int) - (m2 : Int)) % (p : Int) :=
  Int.toNat_of_nonneg (Int.emod_nonneg _ (by omega))

theorem crtFactor_lt {p : Nat} (hp : 0 < p) (q m1 m2 : Nat) : crtFactor p q m1 m2 < p := by
  rw [← Int.ofNat_lt, crtFactor_cast hp]
  exact Int.emod_lt_of_pos _ (by omega)

theorem crtValue_lt {p q m2 : Nat} (hp : 0 < p) (hm2 : m2 < q) (m1 : Nat) : crtValue p q m1 m2 < p * q :=
  calc m2 + crtFactor p q m1 m2 * q
    _ < (crtFactor p q m1 m2 + 1) * q := by rw [Nat.succ_mul]; omega
    _ ≤ p * q := Nat.mul_le_mul_right q (crtFactor_lt hp q m1 m2)

theorem crtValue_modEq_right (p q m1 m2 : Nat) : crtValue p q m1 m2 ≡ m2 [MOD q] := Nat.add_mul_modulus_modEq_iff.mpr rfl

/-- The inverse cancels q, so the difference of the residues makes up for `m2`, also where it is negative. -/
theorem crtValue_modEq_left {p q : Nat} (hp : 0 < p) (hg : Nat.gcd q p = 1) (m1 m2 : Nat) :
    crtValue p q m1 m2 ≡ m1 [MOD p] := by
  have hinv : (q * modinvF q p : Int) ≡ 1 [ZMOD p] := mod_cast Int.natCast_modEq_iff.mpr (mul_modinvF_modEq hp hg)
  rw [← Int.natCast_modEq_iff, crtValue, Nat.cast_add, Nat.cast_mul, crtFactor_cast hp]
  calc (m2 : Int) + modinvF q p * (m1 - m2) % p * q
    _ ≡ m2 + modinvF q p * (m1 - m2) * q [ZMOD p] := ((Int.mod_modEq _ _).mul_right _).add_left _
    _ = m2 + q * modinvF q p * (m1 - m2) := by ring
    _ ≡ m2 + 1 * (m1 - m2) [ZMOD p] := (hinv.mul_right _).add_left _
    _ = m1 := by ring

/-- Settles O23: each clause is one case of DECRYPT_CRT's step; the value recombined is `crtValue`. -/
theorem decryptCrtRecombinesTheResidues : Obligations.DecryptCrtRecombinesTheResidues := by
  intro s
  rcases execDecryptCrt_cases s with ⟨hzero, h⟩ | ⟨hP, hQ, hN, hg, h⟩ | ⟨hP, hQ, hN, hg, h⟩
  · rw [raiseErr_eq_failure] at h
    exact ⟨fun _ => h, by omega, by omega⟩
  · rw [raiseErr_eq_failure] at h
    exact ⟨by omega, fun _ _ _ _ => h, fun _ _ _ hg' => absurd hg' hg⟩
  · rw [complete_eq_commit, apply_cons, apply_nil, crtF_eq_crtValue] at h
    have hpos : 0 < s.regs.get .P := by omega
    exact ⟨by omega, fun _ _ _ hg' => absurd hg hg', fun _ _ _ _ => ⟨_, crtValue_lt hpos (modpowF_lt _ _ hQ) _,
      (crtValue_modEq_left hpos hg _ _).trans (modpowF_mod _ _ _),
      (crtValue_modEq_right _ _ _ _).trans (modpowF_mod _ _ _), h⟩⟩

/-! ### The two paths agree -/

/-- An exponent with an inverse modulo `r` is not a multiple of `r`. -/
theorem mod_pos_of_mul_modEq_one {e d r : Nat} (hr : 2 ≤ r) (h : e * d ≡ 1 [MOD r]) : 0 < d % r := by
  rw [Nat.pos_iff_ne_zero]
  intro h0
  have hdvd : r ∣ e * d := (Nat.dvd_of_mod_eq_zero h0).mul_left e
  have hone : r ∣ 1 := (h.dvd_iff dvd_rfl).mp hdvd
  exact absurd (Nat.le_of_dvd one_pos hone) (by omega)

/-- Fermat's little theorem for every base: a nonzero exponent may be reduced modulo p - 1 if it stays nonzero. With a zero
reduced exponent this fails where p divides the base, which is why rule R186 asks for odd primes. -/
theorem pow_mod_pred_modEq {p d : Nat} (hp : p.Prime) (hpos : 0 < d % (p - 1)) (c : Nat) :
    c ^ (d % (p - 1)) ≡ c ^ d [MOD p] := by
  rw [← Int.natCast_modEq_iff, Nat.cast_pow, Nat.cast_pow]
  exact (Int.ModEq.pow_eq_pow hp (Nat.dvd_sub_mod d) (Nat.mod_le _ _) hpos c).symm

/-- The residues of the CRT path are those of the direct path's power. -/
theorem modEq_pow_of_crt_residues {p q c d x : Nat} (hp : p.Prime) (hq : q.Prime) (hne : p ≠ q)
    (hdp : 0 < d % (p - 1)) (hdq : 0 < d % (q - 1))
    (hxp : x ≡ c ^ (d % (p - 1)) [MOD p]) (hxq : x ≡ c ^ (d % (q - 1)) [MOD q]) : x ≡ c ^ d [MOD p * q] :=
  (Nat.modEq_and_modEq_iff_modEq_mul ((Nat.coprime_primes hp hq).mpr hne)).mp
    ⟨hxp.trans (pow_mod_pred_modEq hp hdp c), hxq.trans (pow_mod_pred_modEq hq hdq c)⟩

/-- Settles O24: D has the inverse E modulo p - 1 and modulo q - 1, both at least 2, so neither reduced exponent is zero and
the two paths commit the same power. -/
theorem crtPathEqualsDirectPath : Obligations.CrtPathEqualsDirectPath := by
  intro s p q hp hq hne hp2 hq2 hP hQ hN hgcd hD _
  have hp3 : 2 ≤ p - 1 := Nat.le_pred_of_lt (hp.two_le.lt_of_ne' hp2)
  have hq3 : 2 ≤ q - 1 := Nat.le_pred_of_lt (hq.two_le.lt_of_ne' hq2)
  have hED : s.regs.get .E * s.regs.get .D ≡ 1 [MOD (p - 1) * (q - 1)] :=
    hD ▸ mul_modinvF_modEq (Nat.mul_pos (by omega) (by omega)) hgcd
  have hdp := mod_pos_of_mul_modEq_one hp3 hED.of_mul_right
  have hdq := mod_pos_of_mul_modEq_one hq3 hED.of_mul_left
  have hN0 : s.regs.get .N ≠ 0 := hN ▸ Nat.mul_ne_zero hp.ne_zero hq.ne_zero
  have hD0 : s.regs.get .D ≠ 0 := by
    intro h0
    rw [h0, Nat.zero_mod] at hdp
    omega
  have hcoprime : Nat.gcd (s.regs.get .Q) (s.regs.get .P) = 1 :=
    hP ▸ hQ ▸ (Nat.coprime_primes hq hp).mpr hne.symm
  obtain ⟨-, -, hrecombines⟩ := decryptCrtRecombinesTheResidues s
  obtain ⟨x, -, hxp, hxq, hcrt⟩ := hrecombines (hP ▸ hp.two_le) (hQ ▸ hq.two_le) hN0 hcoprime
  rw [hP] at hxp
  rw [hQ] at hxq
  have hx : x % s.regs.get .N = s.regs.get .A ^ s.regs.get .D % s.regs.get .N :=
    hN ▸ modEq_pow_of_crt_residues hp hq hne hdp hdq hxp hxq
  obtain ⟨-, hpowers⟩ := directPathsCommitThePower s
  obtain ⟨-, hdirect⟩ := hpowers hN0
  rw [if_neg hD0, ← hx] at hdirect
  exact ⟨_, hdirect, hcrt⟩

end Sys2Proof.Machine
end

section
/-! The command protocol (`60_exceptions.md`): acceptance of a command word (rules R201, R202), the engine's step of the
latched command and its three ends (rules R200, R203 to R205), progress (rule R222), and the bus beside a running command
(rules R207, R209). -/

namespace Sys2Proof.Machine

open Sys2Proof.Claims

/-! ### The step of the latched command -/

/-- Settles O5: on its turn the engine steps, and a running engine runs what its latches hold. -/
theorem stepRunsTheLatchedCommand : Obligations.StepRunsTheLatchedCommand := by
  intro s i hrun hd
  constructor
  · intro hsched
    rw [step_nil hsched, engineStep_running hrun hd]
  · intro rest hsched
    rw [step_cons hsched]
    exact engineStep_running (s := { s with schedule := rest }) hrun hd

/-- While BUSY = 1 a command runs (rule R37). -/
theorem running_of_busy {s : State} (hi : Inv s) (hbusy : s.status.busy = true) : s.eng.phase ≠ .idle :=
  hi.busyIff.mp hbusy

/-- While a command runs the latches hold the word in CMD (rules R37, R201). -/
theorem decode_engineWord {s : State} {i : Instr} (hi : Inv s) (hrun : s.eng.phase ≠ .idle)
    (hd : decode s.cmd = .legal i) : decode s.eng.word = .legal i := by
  obtain ⟨_, hop, hbl⟩ := hi.latched hrun
  rw [engineWord_eq hd s.eng hop hbl, hd]

/-! ### Acceptance -/

/-- A host's CMD write to an idle block is the acceptance of its word (rules R29, R201). -/
theorem transact_writeCmd_idle {s : State} (hbusy : s.status.busy = false) (w : Word) :
    transact (.write (s.cfg.base + 0x014) .word 0xF w) s = { acceptCommand w s with response := some .written } :=
  transact_write_ok (by decide) (memWrite_cmd_idle hbusy w)

/-- STATUS of an idle block after an illegal word (rules R201, R202). -/
theorem refusedWord_of_idle {st : Status} (hbusy : st.busy = false) : st.refusedWord =
    { busy := false, done := true, err := true, prime := false, errcode := .illegal } := by
  simp only [Status.refusedWord, Status.cleared, hbusy]

/-- Settles O7: the write is the acceptance of its word, whose two cases are the two clauses. -/
theorem cmdWriteAcceptsTheCommand : Obligations.CmdWriteAcceptsTheCommand := by
  intro s w hbusy
  rw [transact_writeCmd_idle hbusy]
  constructor
  · intro i hd
    rw [acceptCommand_legal hd]
    rfl
  · intro why hd
    rw [acceptCommand_illegal hd, refusedWord_of_idle hbusy]
    exact ⟨rfl, Bool.true_and s.irqEn⟩

/-! ### How an engine step ends -/

/-- The direct path of ENCRYPT and DECRYPT fails with DIVZERO only (rules R180, R181). -/
theorem unitDirect_errcode {key : OpReg} {s : State} (herr : (unitDirect key s).status.err = true) :
    (unitDirect key s).status.errcode = .divzero := by
  by_cases hN : s.regs.get .N = 0
  · rw [unitDirect_of_zero key hN]
    rfl
  · rw [unitDirect_of_ne_zero key hN] at herr
    cases herr

/-- A step that ends a command in an error records one of the command's own codes (rules R204, R205). -/
theorem exec_errcode_mem {i : Instr} {s t : State} (hrun : s.eng.phase ≠ .idle) (h : exec i s = .next t)
    (hidle : t.eng.phase = .idle) (herr : t.status.err = true) : t.status.errcode ∈ errorsOf i := by
  cases i with
  | gcd => cases h; cases herr
  | egcd => cases h; cases herr
  | mrtest => cases h; cases herr
  | modinv =>
    rcases execModinv_cases s with ⟨_, h'⟩ | ⟨_, _, h'⟩ | ⟨_, _, h'⟩ <;> cases h'.symm.trans h
    · exact .head _
    · exact .tail _ (.head _)
    · cases herr
  | genprime L =>
    rcases execGenprime_cases L s with ⟨_, _, h'⟩ | ⟨_, _, h'⟩ | ⟨_, _, h'⟩ | ⟨_, _, h'⟩ <;> cases h'.symm.trans h
    · exact .head _
    · exact absurd hidle hrun
    · cases herr
    · exact absurd hidle hrun
  | keygen L =>
    rcases execKeygen_cases L s with ⟨_, _, _, h'⟩ | ⟨_, _, _, _, h'⟩ | ⟨_, _, _, h'⟩ | ⟨_, _, h'⟩ | ⟨_, _, h'⟩ <;>
      cases h'.symm.trans h
    · exact .head _
    · cases hidle
    · cases hidle
    · rcases keygenFinish_cases s.eng.kgP (attempt (L / 2) s.rounds.toNat s.entropy).candidate
        { s with entropy := (attempt (L / 2) s.rounds.toNat s.entropy).entropy } with ⟨_, hf⟩ | ⟨_, hf⟩ <;>
        rw [hf] at herr ⊢
      · exact .tail _ (.head _)
      · cases herr
    · exact absurd hidle hrun
  | modpow =>
    by_cases hM : s.regs.get .M = 0
    · cases (if_pos hM).symm.trans h
      exact .head _
    · cases (if_neg hM).symm.trans h
      cases herr
  | encrypt =>
    cases h
    exact List.mem_singleton.mpr (unitDirect_errcode herr)
  | decrypt =>
    cases h
    exact List.mem_singleton.mpr (unitDirect_errcode herr)
  | decryptCrt =>
    rcases execDecryptCrt_cases s with ⟨_, h'⟩ | ⟨_, _, _, _, h'⟩ | ⟨_, _, _, _, h'⟩ <;> cases h'.symm.trans h
    · exact .head _
    · exact .tail _ (.head _)
    · cases herr

/-- Settles O8: the shapes of an engine step, the error's code being the command's own. -/
theorem engineStepSearchesCommitsOrFails : Obligations.EngineStepSearchesCommitsOrFails := by
  intro i s hrun
  obtain ⟨t, h, hshape⟩ := exec_shapes i s
  refine ⟨t, h, ?_⟩
  rcases hshape with ⟨en, e, rfl, _, _, hphase, L, hi⟩ | ⟨ws, en, rfl, _⟩ | ⟨b, en, _, rfl⟩ | ⟨code, en, rfl, _⟩
  · refine .inl ⟨?_, rfl, rfl, ?_⟩
    · rcases hi with rfl | rfl <;> rfl
    · rcases hphase with hp | hp | hp <;> simp [hp, hrun]
  · exact .inr (.inl ⟨rfl, rfl, rfl, rfl, rfl⟩)
  · exact .inr (.inl ⟨rfl, rfl, rfl, rfl, rfl⟩)
  · exact .inr (.inr ⟨rfl, rfl, rfl, exec_errcode_mem hrun h rfl rfl, rfl, rfl, rfl⟩)

/-- The step of a command that does not search completes it (rules R200, R203, R204). -/
theorem exec_completes {i : Instr} {s : State} (hrun : s.eng.phase ≠ .idle) (hi : searches i = false) :
    ∃ t, exec i s = .next t ∧ t.status.busy = false ∧ t.status.done = true ∧ t.eng.phase = .idle ∧
      (t.status.err = true → t.status.errcode ∈ errorsOf i) := by
  obtain ⟨t, h, ⟨hsearch, _⟩ | ⟨hbusy, hdone, _, _, hidle⟩ | ⟨hbusy, hdone, _, _, _, _, hidle⟩⟩ :=
    engineStepSearchesCommitsOrFails i s hrun
  · simp [hi] at hsearch
  · exact ⟨t, h, hbusy, hdone, hidle, exec_errcode_mem hrun h hidle⟩
  · exact ⟨t, h, hbusy, hdone, hidle, exec_errcode_mem hrun h hidle⟩

/-- Settles O9: the engine's turn runs the latched command, whose one step completes it. -/
theorem eightCommandsCompleteInOneStep : Obligations.EightCommandsCompleteInOneStep := by
  intro s i hi hbusy hd hsearch hturn
  have hrun := running_of_busy hi hbusy
  obtain ⟨hempty, hnext⟩ := stepRunsTheLatchedCommand s i hrun (decode_engineWord hi hrun hd)
  rcases hturn with hsched | ⟨rest, hsched⟩
  · rw [hempty hsched]
    exact exec_completes hrun hsearch
  · rw [hnext rest hsched]
    exact exec_completes (s := { s with schedule := rest }) hrun hsearch

/-! ### Progress -/

/-- A command's step is always taken: no command faults or is refused (rule R222). -/
theorem exec_next (i : Instr) (s : State) : ∃ t, exec i s = .next t := (exec_shapes i s).imp fun _ => And.left

/-- Under the invariant the engine never faults (rule R222). -/
theorem engineStep_next {s : State} (hi : Inv s) : ∃ t, engineStep s = .next t := by
  by_cases hidle : s.eng.phase = .idle
  · exact ⟨s, engineStep_idle hidle⟩
  · obtain ⟨i, _, hexec, _⟩ := engineStep_cmd hi hidle
    rw [hexec]
    exact exec_next i s

/-- Under the invariant every entry of the schedule can be performed (rule R222). -/
theorem perform_next {s : State} (hi : Inv s) (e : Event) : ∃ t, perform e s = .next t := by
  cases e with
  | bus x => exact ⟨_, rfl⟩
  | poll addr mask value => exact ⟨_, rfl⟩
  | engine => exact engineStep_next hi
  | reset cut => exact ⟨_, rfl⟩

/-- Settles O45: the next entry of the schedule, or the engine's step, can be taken; and the engine of a busy block runs the
command in CMD. -/
theorem stepNeverStops : Obligations.StepNeverStops := by
  refine fun s hi => ⟨?_, fun hbusy => ?_⟩
  · cases hsched : s.schedule with
    | nil =>
      rw [step_nil hsched]
      exact engineStep_next hi
    | cons e rest =>
      rw [step_cons hsched]
      exact perform_next (s := { s with schedule := rest }) (inv_of_block hi rfl rfl rfl rfl rfl) e
  · obtain ⟨i, hd, hexec, _⟩ := engineStep_cmd hi (running_of_busy hi hbusy)
    obtain ⟨t, ht⟩ := exec_next i s
    exact ⟨i, t, hd, hexec, ht⟩

/-! ### The bus beside a running command -/

/-- An acknowledgement with nothing to clear changes nothing (rule R30). -/
theorem acknowledged_eq_self {st : Status} (hdone : st.done = false) (herr : st.err = false)
    (hcode : st.errcode = .none) : st.acknowledged = st := by
  cases st
  cases hdone
  cases herr
  cases hcode
  rfl

/-- The acknowledgement of a busy block has nothing to clear: DONE, ERR and ERRCODE are 0 while a command runs (rules R30, R33,
R34). -/
theorem acknowledged_of_busy {s : State} (hi : Inv s) (hbusy : s.status.busy = true) :
    s.status.acknowledged = s.status := by
  have hdone : s.status.done = false := by
    by_contra hd
    exact hi.notBoth ⟨hbusy, by simpa using hd⟩
  have herr : s.status.err = false := by
    by_contra he
    simp [hi.errDone (by simpa using he)] at hdone
  exact acknowledged_eq_self hdone herr (hi.codeIff.mpr herr)

/-- A transaction leaves a running command's block as it is, but for CTRL.IRQ_EN and the answer (rules R207, R236 to R238). -/
theorem transact_running {s : State} (hi : Inv s) (hbusy : s.status.busy = true) (t : Txn) :
    transact t s = { s with irqEn := (transact t s).irqEn, response := (transact t s).response,
                            faulted := (transact t s).faulted } := by
  obtain ⟨_, _, _, _, h⟩ := transact_busy hbusy t
  rw [acknowledged_of_busy hi hbusy, ite_self] at h
  rw [h]

/-- An effect is not on CTRL.IRQ_EN, nor on the answer to the host. -/
theorem Effect.apply_withAnswer (f : Effect) (s : State) (irqEn : Bool) (resp : Option Response) (faulted : Bool) :
    f.apply { s with irqEn := irqEn, response := resp, faulted := faulted } =
      { f.apply s with irqEn := irqEn, response := resp, faulted := faulted } := by
  cases f <;> rfl

/-- Settles O56: the transaction leaves the command's inputs as they are, so its step has the same effect after it. -/
theorem transactionsDoNotDisturbACommand : Obligations.TransactionsDoNotDisturbACommand := by
  intro s i t hi hbusy _
  obtain ⟨f, _, hf⟩ := exec_hasEffect i s
  have htransact := transact_running hi hbusy t
  have hinputs : SameInputs i s (transact t s) := by
    rw [htransact]
    exact ⟨rfl, rfl, rfl, rfl, fun _ _ => rfl⟩
  refine ⟨f.apply s, hf s (.refl i s), ?_⟩
  rw [hf _ hinputs, ← Effect.apply_withAnswer, ← htransact]

end Sys2Proof.Machine
end

section
/-! Reset, the busy interlock, and the ends of commands and runs (`70_reset_and_hazards.md` rules R230, R231, R236 to R238,
R245). -/

namespace Sys2Proof.Machine

open Sys2Proof.Claims

/-! ### The fault mark -/

/-- An answered word write leaves the fault mark (rule R58). -/
theorem memWrite_ok_faulted {off : Nat} {data : Word} {s u : State} (h : memWrite off data s = .ok u) :
    u.faulted = s.faulted := by
  rcases memWrite_cases off data s with
    ⟨_, e⟩ | e | ⟨_, e⟩ | ⟨_, _, e⟩ | ⟨_, _, e⟩ | ⟨_, _, e⟩ | ⟨_, _, _, _, e⟩ <;> cases e.symm.trans h
  exacts [rfl, rfl, acceptCommand_faulted data s, rfl, rfl, rfl]

/-- The fault mark after a transaction: the one before it, or that of its own bus error (rules R58, R245). -/
theorem transact_faulted_iff (t : Txn) (s : State) :
    (transact t s).faulted = true ↔
      s.faulted = true ∨ ∃ why, (transact t s).response = some (.busError why) := by
  cases t with
  | read addr size =>
    simp only [transact]
    cases offsetOf s.cfg addr with
    | none => simp
    | some off => rcases answerRead_cases off size s with ⟨_, _, h⟩ | ⟨_, _, _, h⟩ <;> simp [h]
  | write addr size strobes data =>
    simp only [transact]
    cases offsetOf s.cfg addr with
    | none => simp
    | some off =>
      rcases answerWrite_cases off size strobes data s with ⟨_, _, h⟩ | ⟨u, _, _, hm, h⟩
      · simp [h]
      · simp [h, memWrite_ok_faulted hm]

/-- A poll answers what its read answers, and is marked as it is (rule R89). -/
theorem pollStep_answer (addr : Nat) (mask value : Word) (s : State) :
    (pollStep addr mask value s).response = (transact (.read addr .word) s).response ∧
      (pollStep addr mask value s).faulted = (transact (.read addr .word) s).faulted := by
  simp only [pollStep]
  split
  · split <;> exact ⟨rfl, rfl⟩
  · exact ⟨rfl, rfl⟩

/-- An engine step is not on the fault mark: it is the host's (assumption log 5). -/
theorem engineStep_faulted {s t : State} (hi : Inv s) (h : engineStep s = .next t) : t.faulted = s.faulted := by
  by_cases hidle : s.eng.phase = .idle
  · cases (engineStep_idle hidle).symm.trans h
    rfl
  · obtain ⟨i, _, hexec, _⟩ := engineStep_cmd hi hidle
    obtain ⟨f, _, hf⟩ := exec_hasEffect i s
    cases (hexec.trans (hf s (.refl i s))).symm.trans h
    obtain ⟨_, _, _, _, _, _, hfaulted⟩ := f.apply_frame s
    exact hfaulted

/-- A run becomes faulted by a bus error in answer to a transaction or a poll, and by nothing else (rule R245). -/
theorem perform_faulted_iff {e : Event} {s t : State} (hi : Inv s) (h : perform e s = .next t)
    (hclean : s.faulted = false) :
    t.faulted = true ↔ e.isHostOperation = true ∧ ∃ why, t.response = some (.busError why) := by
  cases e with
  | bus x =>
    cases h
    simp [transact_faulted_iff, hclean, Event.isHostOperation]
  | poll addr mask value =>
    cases h
    obtain ⟨hresp, hfaulted⟩ := pollStep_answer addr mask value s
    simp [hresp, hfaulted, transact_faulted_iff, hclean, Event.isHostOperation]
  | engine => simp [engineStep_faulted hi h, hclean, Event.isHostOperation]
  | reset cut =>
    cases h
    cases cut <;> simp [resetStep, hclean, Event.isHostOperation]

/-! ### The end of a command -/

/-- A transaction that sets DONE is a CMD write of an illegal word to an idle block (rules R33, R202). -/
theorem transact_sets_done {x : Txn} {s : State} (hdone : s.status.done = false)
    (ht : (transact x s).status.done = true) :
    s.status.busy = false ∧ ∃ w why, x = .write (s.cfg.base + 0x014) .word 0xF w ∧ decode w = .illegal why := by
  rcases transact_status_cases x s with hkeep | ⟨w, hx, hbusy, hacc⟩ | ⟨_, _, _, hack⟩
  · simp [hkeep, hdone] at ht
  · cases hd : decode w with
    | illegal why => exact ⟨hbusy, w, why, hx, hd⟩
    | legal i =>
      rw [hacc, acceptCommand_status_legal hd] at ht
      cases ht
  · rw [hack] at ht
    cases ht

/-- What turns DONE on is the end of a command: the running command's engine step, or the acceptance of an illegal word
(rules R33, R245). -/
theorem endsCommand_of_sets_done {e : Event} {s t : State} (hi : Inv s) (h : perform e s = .next t)
    (hdone : s.status.done = false) (ht : t.status.done = true) : EndsCommand e s t := by
  cases e with
  | bus x =>
    cases h
    obtain ⟨hbusy, w, why, rfl, hd⟩ := transact_sets_done hdone ht
    exact ⟨rfl, ht, by simpa using hbusy, .inr ⟨w, why, rfl, hd⟩⟩
  | poll addr mask value =>
    cases h
    obtain ⟨_, _, _, hshape⟩ := pollStep_shape addr mask value s
    simp [hshape, hdone] at ht
  | engine =>
    have hrun : s.eng.phase ≠ .idle := by
      intro hidle
      cases (engineStep_idle hidle).symm.trans h
      simp [hdone] at ht
    exact ⟨h, ht, by simpa using hi.busyIff.mpr hrun, .inl rfl⟩
  | reset cut =>
    cases h
    rw [resetStep_status] at ht
    cases ht

/-- A completed block is not busy (rule R33). -/
theorem not_busy_of_done {s : State} (hi : Inv s) (hdone : s.status.done = true) : s.status.busy = false := by
  by_contra hb
  exact hi.notBoth ⟨by simpa using hb, hdone⟩

/-- A command that ends on an idle block is an illegal word, and its code says so (rules R202, R205). -/
theorem endsCommand_idle_errcode {e : Event} {s t : State} (h : EndsCommand e s t) (hbusy : s.status.busy = false) :
    t.status.errcode = .illegal := by
  obtain ⟨hperf, _, hengine, rfl | ⟨w, why, rfl, hd⟩⟩ := h
  · simp [hbusy] at hengine
  · cases hperf
    rw [transact_writeCmd_idle hbusy, acceptCommand_illegal hd]
    rfl

/-! ### The end of a run -/

/-- An entry that is no operation of the host's is the engine's turn or a plain reset. -/
theorem not_isHostOperation_iff (e : Event) : e.isHostOperation = false ↔ e = .engine ∨ e = .reset none := by
  rcases e with _ | _ | _ | (_ | _) <;> simp [Event.isHostOperation]

/-- A step of an ended run: the idle engine's turn, which only takes its entry off the schedule, or a plain reset
(rules R219, R245). -/
theorem step_of_ended {s t : State} (hi : Inv s) (hend : Ended s) (h : step s = .next t) :
    t = { s with schedule := s.schedule.tail } ∨
      (.reset none ∈ s.schedule ∧ t = resetEvent { s with schedule := s.schedule.tail }) := by
  obtain ⟨hhost, hbusy⟩ := hend
  have hidle := idle_of_not_busy hi hbusy
  cases hsched : s.schedule with
  | nil =>
    cases (engineStep_idle hidle).symm.trans ((step_nil hsched).symm.trans h)
    exact .inl (by rw [List.tail_nil, ← hsched])
  | cons e rest =>
    rw [step_cons hsched] at h
    rw [hsched, List.any_cons, Bool.or_eq_false_iff, not_isHostOperation_iff] at hhost
    obtain ⟨rfl | rfl, _⟩ := hhost
    · cases (engineStep_idle (s := { s with schedule := rest }) hidle).symm.trans h
      exact .inl rfl
    · cases h
      exact .inr ⟨.head _, rfl⟩

/-- Taking an entry off the schedule leaves a run with no host operation to come without one. -/
theorem any_isHostOperation_tail {sched : List Event} (h : sched.any Event.isHostOperation = false) :
    sched.tail.any Event.isHostOperation = false := by
  rw [List.any_eq_false] at h ⊢
  exact fun e he => h e (List.mem_of_mem_tail he)

/-! ### The obligations -/

/-- Settles O42: the step is the reset event, which leaves the reset values of the block, whatever it cuts off. -/
theorem resetAbandonsTheCommand : Obligations.ResetAbandonsTheCommand := by
  intro s cut rest hsched
  refine ⟨resetStep cut { s with schedule := rest }, step_cons hsched, ?_⟩
  obtain ⟨_, hshape⟩ := resetStep_shape cut { s with schedule := rest }
  rw [hshape]
  exact ⟨rfl, rfl, zero_get, rfl, rfl, rfl, rfl, rfl, rfl, rfl, rfl⟩

/-- Settles O55: a transaction on a busy block answers, stores CTRL or acknowledges, and the offsets refused to it are rule
R58's. -/
theorem busyInterlock : Obligations.BusyInterlock := by
  intro s hbusy
  have hrefused {off : Nat} (hoff : isOperandOffset off) : RefusedOffset s off := .inr (.inr (.inr ⟨hoff, .inr hbusy⟩))
  refine ⟨fun t => ?_, fun off hoff => ?_, fun data => ?_, memRead_cfg s, memRead_cmd s, memRead_status s⟩
  · obtain ⟨_, _, _, ack, h⟩ := transact_busy hbusy t
    rw [h]
    cases ack <;> exact ⟨rfl, rfl, rfl, rfl, hbusy, rfl⟩
  · exact ⟨(memRead_busError_iff off s).mpr (hrefused hoff),
      fun data => (memWrite_busError_iff off data s).mpr (.inl (hrefused hoff))⟩
  · obtain ⟨_, _, _, _, _, _, hwrites⟩ := controlRegisters s data
    exact hwrites hbusy

/-- Settles O60: what sets DONE is the end of a command, after which the block is idle; an ended run has only engine turns and
plain resets left; and only an answer to the host sets the fault mark. -/
theorem commandsAndRunsEndAsDefined : Obligations.CommandsAndRunsEndAsDefined := by
  refine ⟨fun e s t => endsCommand_of_sets_done, fun e s t hi hend => ?_, fun s t hi hend hstep => ?_,
    fun e s t => perform_faulted_iff⟩
  · have hcode := endsCommand_idle_errcode hend
    obtain ⟨hperf, hdone, _⟩ := hend
    have ht := perform_keeps_inv hi hperf
    have hbusy := not_busy_of_done ht hdone
    exact ⟨hbusy, idle_of_not_busy ht hbusy, hcode⟩
  · have ⟨hhost, hbusy⟩ := hend
    have htail := any_isHostOperation_tail hhost
    rcases step_of_ended hi hend hstep with rfl | ⟨hreset, rfl⟩
    · exact ⟨⟨htail, hbusy⟩, rfl, fun _ => rfl⟩
    · exact ⟨⟨htail, rfl⟩, rfl, fun hno => absurd hreset hno⟩

end Sys2Proof.Machine
end
